-- ==== Sys2Proof/Word.lean ====
section
/-! DEFINITION. The word types of the hardware (spec/00_scope.md R7, R8): every value is an unsigned bit
vector of the width the spec gives it. -/

namespace Sys2Proof

/-- A byte: a RAM cell, a general register, a timer (`REG_BITS`, `TIMER_BITS`). -/
abbrev Byte := BitVec 8

/-- An instruction word (`WORD_BITS`). -/
abbrev Word := BitVec 16

/-- A value of `pc`, `i_reg` or a stack entry (`PC_BITS`, `IREG_BITS`, `STACK_ENTRY_BITS`). -/
abbrev Addr := BitVec 16

/-- A 12-bit address: the operand `NNN`, and the address port of a RAM write (R9, R204). -/
abbrev Addr12 := BitVec 12

/-- A general register's index, taken from field `X` or `Y`; all sixteen are legal (R21, R89). -/
abbrev RegIdx := Fin 16

end Sys2Proof
end

