-- ==== Sys2Proof/Syntax.lean ====
section
/-! DEFINITION. The fifteen instructions (spec/30_encoding.md R86), one constructor for each row of
spec/opcode_table.json. Operands have the types of their fields (R82): a register index, an 8-bit immediate, a
12-bit absolute address; every value of each is legal (R89). -/

namespace Sys2Proof

/-- The instruction set, in the order of the table of R86. -/
inductive Instr where
  /-- 0000 `NOP` (R130). -/
  | nop
  /-- 00E0 `CLS` (R131). -/
  | cls
  /-- 00EE `RET` (R142). -/
  | ret
  /-- 1NNN `JP addr` (R143). -/
  | jp (nnn : Addr12)
  /-- 2NNN `CALL addr` (R144). -/
  | call (nnn : Addr12)
  /-- 3XNN `SE Vx, byte` (R161). -/
  | seImm (x : RegIdx) (nn : Byte)
  /-- 4XNN `SNE Vx, byte` (R162). -/
  | sneImm (x : RegIdx) (nn : Byte)
  /-- 5XY0 `SE Vx, Vy` (R163). -/
  | seReg (x y : RegIdx)
  /-- 6XNN `LD Vx, byte` (R170). -/
  | ldImm (x : RegIdx) (nn : Byte)
  /-- 7XNN `ADD Vx, byte` (R171). -/
  | addImm (x : RegIdx) (nn : Byte)
  /-- 8XY0 `LD Vx, Vy` (R181). -/
  | ldReg (x y : RegIdx)
  /-- 8XY1 `OR Vx, Vy` (R182). -/
  | orReg (x y : RegIdx)
  /-- 8XY2 `AND Vx, Vy` (R183). -/
  | andReg (x y : RegIdx)
  /-- 8XY3 `XOR Vx, Vy` (R184). -/
  | xorReg (x y : RegIdx)
  /-- 8XY4 `ADD Vx, Vy` (R185). -/
  | addReg (x y : RegIdx)
  deriving DecidableEq, Repr

end Sys2Proof
end

