-- ==== Sys2Proof/WellFormed.lean ====
section
/-! DEFINITION. Which operands fit their fields (spec/30_encoding.md R82, R94). An operand as an assembler line gives it is a
plain number, and the line is well formed when each number fits the field it fills. An `Instr` holds operands of
the fields' own types, so it is well formed always: register fields are never a cause of illegality (R89). -/

namespace Sys2Proof

/-- The operand fields of R9. -/
inductive Field where
  | x | y | nn | nnn
  deriving DecidableEq, Repr

/-- The width of a field in bits (R9, R82). -/
def Field.width : Field → Nat
  | .x => 4
  | .y => 4
  | .nn => 8
  | .nnn => 12

/-- A number that is to fill a field. -/
structure Operand where
  field : Field
  value : Nat
  deriving DecidableEq, Repr

/-- The number is one the field can hold, unsigned. -/
def Operand.fits (o : Operand) : Bool := o.value < 2 ^ o.field.width

/-- The operands of an instruction as numbers. -/
def Instr.operands : Instr → List Operand
  | .nop => []
  | .cls => []
  | .ret => []
  | .jp nnn => [⟨.nnn, nnn.toNat⟩]
  | .call nnn => [⟨.nnn, nnn.toNat⟩]
  | .seImm x nn => [⟨.x, x.val⟩, ⟨.nn, nn.toNat⟩]
  | .sneImm x nn => [⟨.x, x.val⟩, ⟨.nn, nn.toNat⟩]
  | .seReg x y => [⟨.x, x.val⟩, ⟨.y, y.val⟩]
  | .ldImm x nn => [⟨.x, x.val⟩, ⟨.nn, nn.toNat⟩]
  | .addImm x nn => [⟨.x, x.val⟩, ⟨.nn, nn.toNat⟩]
  | .ldReg x y => [⟨.x, x.val⟩, ⟨.y, y.val⟩]
  | .orReg x y => [⟨.x, x.val⟩, ⟨.y, y.val⟩]
  | .andReg x y => [⟨.x, x.val⟩, ⟨.y, y.val⟩]
  | .xorReg x y => [⟨.x, x.val⟩, ⟨.y, y.val⟩]
  | .addReg x y => [⟨.x, x.val⟩, ⟨.y, y.val⟩]

/-- Every operand of the instruction fits its field. -/
def WellFormed (i : Instr) : Bool := i.operands.all Operand.fits

/-- A line of assembler (R94): one of the fifteen forms of R86 with its operands as written, plain numbers. There
are no pseudo-instructions (R95). -/
inductive Line where
  | nop
  | cls
  | ret
  | jp (addr : Nat)
  | call (addr : Nat)
  | seImm (x byte : Nat)
  | sneImm (x byte : Nat)
  | seReg (x y : Nat)
  | ldImm (x byte : Nat)
  | addImm (x byte : Nat)
  | ldReg (x y : Nat)
  | orReg (x y : Nat)
  | andReg (x y : Nat)
  | xorReg (x y : Nat)
  | addReg (x y : Nat)
  deriving DecidableEq, Repr

/-- The operands of a line with the fields they fill (R94: `Vx` fills `X`, `Vy` fills `Y`, `byte` fills `NN`,
`addr` fills `NNN`). -/
def Line.operands : Line → List Operand
  | .nop => []
  | .cls => []
  | .ret => []
  | .jp a => [⟨.nnn, a⟩]
  | .call a => [⟨.nnn, a⟩]
  | .seImm x b => [⟨.x, x⟩, ⟨.nn, b⟩]
  | .sneImm x b => [⟨.x, x⟩, ⟨.nn, b⟩]
  | .seReg x y => [⟨.x, x⟩, ⟨.y, y⟩]
  | .ldImm x b => [⟨.x, x⟩, ⟨.nn, b⟩]
  | .addImm x b => [⟨.x, x⟩, ⟨.nn, b⟩]
  | .ldReg x y => [⟨.x, x⟩, ⟨.y, y⟩]
  | .orReg x y => [⟨.x, x⟩, ⟨.y, y⟩]
  | .andReg x y => [⟨.x, x⟩, ⟨.y, y⟩]
  | .xorReg x y => [⟨.x, x⟩, ⟨.y, y⟩]
  | .addReg x y => [⟨.x, x⟩, ⟨.y, y⟩]

/-- The line's numbers are in the ranges of R94: a register 0 to 15, a `byte` 0 to 255, an `addr` 0x000 to 0xFFF. -/
def Line.wellFormed (l : Line) : Bool := l.operands.all Operand.fits

/-- The instruction a line stands for, its numbers reduced to their fields. -/
def Line.instr : Line → Instr
  | .nop => .nop
  | .cls => .cls
  | .ret => .ret
  | .jp a => .jp (BitVec.ofNat 12 a)
  | .call a => .call (BitVec.ofNat 12 a)
  | .seImm x b => .seImm (Fin.ofNat 16 x) (BitVec.ofNat 8 b)
  | .sneImm x b => .sneImm (Fin.ofNat 16 x) (BitVec.ofNat 8 b)
  | .seReg x y => .seReg (Fin.ofNat 16 x) (Fin.ofNat 16 y)
  | .ldImm x b => .ldImm (Fin.ofNat 16 x) (BitVec.ofNat 8 b)
  | .addImm x b => .addImm (Fin.ofNat 16 x) (BitVec.ofNat 8 b)
  | .ldReg x y => .ldReg (Fin.ofNat 16 x) (Fin.ofNat 16 y)
  | .orReg x y => .orReg (Fin.ofNat 16 x) (Fin.ofNat 16 y)
  | .andReg x y => .andReg (Fin.ofNat 16 x) (Fin.ofNat 16 y)
  | .xorReg x y => .xorReg (Fin.ofNat 16 x) (Fin.ofNat 16 y)
  | .addReg x y => .addReg (Fin.ofNat 16 x) (Fin.ofNat 16 y)

/-- What a line assembles to: its instruction when it is well formed, nothing when a number does not fit. -/
def Line.assemble (l : Line) : Option Instr := if l.wellFormed then some l.instr else none

end Sys2Proof
end

