-- ==== Sys2Proof/Decode.lean ====
section
/-! DEFINITION. The decoder unit (spec/30_encoding.md): the fields of a word (R9, R82), the decode function of R83, the
encoder, the opcode map of R86, and the assembler forms of R94. Decode reads nothing but the word (R83). -/

namespace Sys2Proof

/-- Why a word is illegal: the four classes of R90, which together are every word of no row of R86. -/
inductive IllegalClass where
  /-- `n3 = 0`, other than 0x0000, 0x00E0 and 0x00EE (R85). -/
  | zeroFamily
  /-- `n3 = 5` with `n0` not 0 (R87). -/
  | fiveFamily
  /-- `n3 = 8` with `n0` at least 5 (R88). -/
  | eightFamily
  /-- `n3` from 0x9 to 0xF (R90). -/
  | highFamily
  deriving DecidableEq, Repr

/-- `n3 = w[15:12]`, the opcode nibble (R9). -/
def n3 (w : Word) : BitVec 4 := w.extractLsb' 12 4

/-- `n0 = w[3:0]`, the function code of format FR (R9). -/
def n0 (w : Word) : BitVec 4 := w.extractLsb' 0 4

/-- `X = w[11:8]` (R82). -/
def fieldX (w : Word) : RegIdx := (w.extractLsb' 8 4).toFin

/-- `Y = w[7:4]` (R82). -/
def fieldY (w : Word) : RegIdx := (w.extractLsb' 4 4).toFin

/-- `NN = w[7:0]` (R82). -/
def fieldNN (w : Word) : Byte := w.extractLsb' 0 8

/-- `NNN = w[11:0]` (R82). -/
def fieldNNN (w : Word) : Addr12 := w.extractLsb' 0 12

/-- The decode function, in the order of R83. 0x00EE is `RET` (R84, conflict C3, decision D1). -/
def decode (w : Word) : Except IllegalClass Instr :=
  if w = 0x0000#16 then .ok .nop
  else if w = 0x00E0#16 then .ok .cls
  else if w = 0x00EE#16 then .ok .ret
  else if n3 w = 0x0#4 then .error .zeroFamily
  else if n3 w = 0x1#4 then .ok (.jp (fieldNNN w))
  else if n3 w = 0x2#4 then .ok (.call (fieldNNN w))
  else if n3 w = 0x3#4 then .ok (.seImm (fieldX w) (fieldNN w))
  else if n3 w = 0x4#4 then .ok (.sneImm (fieldX w) (fieldNN w))
  else if n3 w = 0x5#4 then
    if n0 w = 0x0#4 then .ok (.seReg (fieldX w) (fieldY w)) else .error .fiveFamily
  else if n3 w = 0x6#4 then .ok (.ldImm (fieldX w) (fieldNN w))
  else if n3 w = 0x7#4 then .ok (.addImm (fieldX w) (fieldNN w))
  else if n3 w = 0x8#4 then
    if n0 w = 0x0#4 then .ok (.ldReg (fieldX w) (fieldY w))
    else if n0 w = 0x1#4 then .ok (.orReg (fieldX w) (fieldY w))
    else if n0 w = 0x2#4 then .ok (.andReg (fieldX w) (fieldY w))
    else if n0 w = 0x3#4 then .ok (.xorReg (fieldX w) (fieldY w))
    else if n0 w = 0x4#4 then .ok (.addReg (fieldX w) (fieldY w))
    else .error .eightFamily
  else .error .highFamily

/-- The word at two bytes, the first at the lower address: the first byte is the high one (R52). -/
def wordOfBytes (hi lo : Byte) : Word := hi ++ lo

/-- The bytes of a word as they stand in RAM, lowest address first (R52). -/
def bytesOfWord (w : Word) : Byte × Byte := (w.extractLsb' 8 8, w.extractLsb' 0 8)

/-- Why a run of bytes begins with no instruction. -/
inductive Reject where
  /-- Fewer than two bytes are left; every instruction is two bytes (R80). -/
  | truncated
  /-- The first two bytes are an illegal word (R90). -/
  | illegal (why : IllegalClass)
  deriving DecidableEq, Repr

/-- Decode from bytes, lowest address first: the instruction and the bytes after it, or the reason there is none. -/
def decodeBytes : List Byte → Except Reject (Instr × List Byte)
  | hi :: lo :: rest =>
    match decode (wordOfBytes hi lo) with
    | .ok i => .ok (i, rest)
    | .error why => .error (.illegal why)
  | _ => .error .truncated

/-- The decoder's answer for a word whose bits are numbered as spec/opcode_table.json numbers them. An instruction is
one 16-bit word (R80), so its bits above `nbits` are 0; the word is laid out high byte first (R52) and decoded from
its bytes. More than 16 bits are no instruction of this hardware. -/
def decodeTableWord (nbits w : Nat) : Option Instr :=
  if 16 < nbits then none
  else
    let b := bytesOfWord (BitVec.ofNat 16 (w % 2 ^ nbits))
    match decodeBytes [b.1, b.2] with
    | .ok (i, _) => some i
    | .error _ => none

/-! ### The encoder, by format (R81) -/

/-- A register index as the 4 bits of its field. -/
def regBits (r : RegIdx) : BitVec 4 := BitVec.ofFin (w := 4) r

/-- Format FA: a 4-bit opcode and a 12-bit address. -/
def formatFA (op : BitVec 4) (nnn : Addr12) : Word := op ++ nnn

/-- Format FI: a 4-bit opcode, a register index, an 8-bit immediate. -/
def formatFI (op : BitVec 4) (x : RegIdx) (nn : Byte) : Word := (op ++ regBits x) ++ nn

/-- Format FR: a 4-bit opcode, two register indices, a 4-bit function code. -/
def formatFR (op : BitVec 4) (x y : RegIdx) (fn : BitVec 4) : Word := (op ++ regBits x) ++ (regBits y ++ fn)

/-- The word of an instruction (R81, R86). -/
def encode : Instr → Word
  | .nop => 0x0000#16
  | .cls => 0x00E0#16
  | .ret => 0x00EE#16
  | .jp nnn => formatFA 0x1#4 nnn
  | .call nnn => formatFA 0x2#4 nnn
  | .seImm x nn => formatFI 0x3#4 x nn
  | .sneImm x nn => formatFI 0x4#4 x nn
  | .seReg x y => formatFR 0x5#4 x y 0x0#4
  | .ldImm x nn => formatFI 0x6#4 x nn
  | .addImm x nn => formatFI 0x7#4 x nn
  | .ldReg x y => formatFR 0x8#4 x y 0x0#4
  | .orReg x y => formatFR 0x8#4 x y 0x1#4
  | .andReg x y => formatFR 0x8#4 x y 0x2#4
  | .xorReg x y => formatFR 0x8#4 x y 0x3#4
  | .addReg x y => formatFR 0x8#4 x y 0x4#4

/-! ### The opcode map (R86) -/

/-- A row of the opcode map: a word belongs to it exactly when `w &&& mask = pattern`. -/
structure OpcodeRow where
  pattern : Word
  mask : Word
  deriving DecidableEq, Repr

/-- The word is one of the row's. -/
def OpcodeRow.matches (r : OpcodeRow) (w : Word) : Bool := w &&& r.mask == r.pattern

/-- The row of an instruction, its `match` and `mask` columns. -/
def Instr.row : Instr → OpcodeRow
  | .nop => ⟨0x0000#16, 0xFFFF#16⟩
  | .cls => ⟨0x00E0#16, 0xFFFF#16⟩
  | .ret => ⟨0x00EE#16, 0xFFFF#16⟩
  | .jp _ => ⟨0x1000#16, 0xF000#16⟩
  | .call _ => ⟨0x2000#16, 0xF000#16⟩
  | .seImm _ _ => ⟨0x3000#16, 0xF000#16⟩
  | .sneImm _ _ => ⟨0x4000#16, 0xF000#16⟩
  | .seReg _ _ => ⟨0x5000#16, 0xF00F#16⟩
  | .ldImm _ _ => ⟨0x6000#16, 0xF000#16⟩
  | .addImm _ _ => ⟨0x7000#16, 0xF000#16⟩
  | .ldReg _ _ => ⟨0x8000#16, 0xF00F#16⟩
  | .orReg _ _ => ⟨0x8001#16, 0xF00F#16⟩
  | .andReg _ _ => ⟨0x8002#16, 0xF00F#16⟩
  | .xorReg _ _ => ⟨0x8003#16, 0xF00F#16⟩
  | .addReg _ _ => ⟨0x8004#16, 0xF00F#16⟩

/-- The fifteen rows of R86, in its order. -/
def opcodeTable : List OpcodeRow :=
  [⟨0x0000#16, 0xFFFF#16⟩, ⟨0x00E0#16, 0xFFFF#16⟩, ⟨0x00EE#16, 0xFFFF#16⟩, ⟨0x1000#16, 0xF000#16⟩,
   ⟨0x2000#16, 0xF000#16⟩, ⟨0x3000#16, 0xF000#16⟩, ⟨0x4000#16, 0xF000#16⟩, ⟨0x5000#16, 0xF00F#16⟩,
   ⟨0x6000#16, 0xF000#16⟩, ⟨0x7000#16, 0xF000#16⟩, ⟨0x8000#16, 0xF00F#16⟩, ⟨0x8001#16, 0xF00F#16⟩,
   ⟨0x8002#16, 0xF00F#16⟩, ⟨0x8003#16, 0xF00F#16⟩, ⟨0x8004#16, 0xF00F#16⟩]

/-! ### Assembler forms (R86 column `assembler`, R94) -/

/-- A hexadecimal digit, capitals as R94 writes registers. -/
def hexDigit (n : BitVec 4) : String :=
  ["0", "1", "2", "3", "4", "5", "6", "7", "8", "9", "A", "B", "C", "D", "E", "F"].getD n.toNat "0"

/-- A register's name, `V0` to `VF`. -/
def asmReg (r : RegIdx) : String := "V" ++ hexDigit (regBits r)

/-- A byte as `0x` and two digits. -/
def asmByte (b : Byte) : String := "0x" ++ hexDigit (b.extractLsb' 4 4) ++ hexDigit (b.extractLsb' 0 4)

/-- An address as `0x` and three digits. -/
def asmAddr (a : Addr12) : String :=
  "0x" ++ hexDigit (a.extractLsb' 8 4) ++ hexDigit (a.extractLsb' 4 4) ++ hexDigit (a.extractLsb' 0 4)

/-- The instruction in the assembler syntax of R94. -/
def Instr.asm : Instr → String
  | .nop => "NOP"
  | .cls => "CLS"
  | .ret => "RET"
  | .jp nnn => "JP " ++ asmAddr nnn
  | .call nnn => "CALL " ++ asmAddr nnn
  | .seImm x nn => "SE " ++ asmReg x ++ ", " ++ asmByte nn
  | .sneImm x nn => "SNE " ++ asmReg x ++ ", " ++ asmByte nn
  | .seReg x y => "SE " ++ asmReg x ++ ", " ++ asmReg y
  | .ldImm x nn => "LD " ++ asmReg x ++ ", " ++ asmByte nn
  | .addImm x nn => "ADD " ++ asmReg x ++ ", " ++ asmByte nn
  | .ldReg x y => "LD " ++ asmReg x ++ ", " ++ asmReg y
  | .orReg x y => "OR " ++ asmReg x ++ ", " ++ asmReg y
  | .andReg x y => "AND " ++ asmReg x ++ ", " ++ asmReg y
  | .xorReg x y => "XOR " ++ asmReg x ++ ", " ++ asmReg y
  | .addReg x y => "ADD " ++ asmReg x ++ ", " ++ asmReg y

end Sys2Proof
end

