-- ==== Sys2Proof/Config.lean ====
section
/-! DEFINITION. The parameters of the block (spec/00_scope.md R7). The fixed widths and sizes are in the types of
Word.lean and State.lean; the entry address and the one open parameter that is state contents, `FONT`, stand here.
The other open parameters are the host's rates and clock counts, which no rule depends on (log 6), and the end of a
run, which is a predicate in Safety.lean (log 8). -/

namespace Sys2Proof

/-- `ENTRY`: the entry address, reset value of `pc` and first byte of a loaded program. -/
def Config.entry : Addr := 0x0200#16

/-- `FONT`, the 80 bytes that reset installs at RAM 0x000 to 0x04F. OPEN in the spec (R7, decision D12), so a FREE
VALUE: it has no body, and a statement about it holds for every font (log 2). -/
opaque Config.font : Fin 80 → Byte

end Sys2Proof
end

