-- ==== Sys2Proof/Machine/State.lean ====
section
/-! DEFINITION. The state of the block (spec/10_state.md R20), exactly its elements and nothing else, as plain data; the
faults of R230; and the state after reset (R36). -/

namespace Sys2Proof.Machine

/-- The four faults of spec/60_exceptions.md R230. The block takes each by its own fault entry (R236), which is a
NEXT state with `halted` set and the fault in `faultCause`, so that the halted state can be ticked, read and reset
as the spec says; no step of this model ends in `Outcome.fault` (log 1). -/
inductive Fault where
  /-- Code 1, raised by fetch when either byte of the instruction lies outside RAM (R231). Safe: a halted state. -/
  | fetchOutOfBounds
  /-- Code 2, raised by decode when the fetched word is illegal (R232). Safe: a halted state. -/
  | illegalOpcode
  /-- Code 3, raised by `CALL` when the stack holds 16 return addresses (R233). Safe: a halted state. -/
  | stackOverflow
  /-- Code 4, raised by `RET` when the stack is empty (R234). Safe: a halted state. -/
  | stackUnderflow
  deriving DecidableEq, Repr

/-- Why a step has no meaning. -/
inductive Refusal where
  /-- Raised by an arm of `exec` whose instruction has no meaning yet. Every instruction has one, so nothing
  raises it. Safe. -/
  | notModelled (mnemonic : String)
  deriving DecidableEq, Repr

/-- The outcome of a step or of a meaning. -/
abbrev Result (σ : Type) := Host.Outcome σ Fault Refusal

/-- RAM as the cells that differ from the reset contents, addresses strictly rising (`Memory.wf`; log 3). -/
abbrev Memory := List Host.Cell

/-- The Machine of R20. -/
structure State where
  /-- `pc`, the program counter (R23). -/
  pc : Addr
  /-- `x[0..15]`, the general registers; `x[15]` is the flag register (R21, R22). -/
  x : Vector Byte 16
  /-- `i_reg`, the address register, which no instruction uses (R26). -/
  iReg : Addr
  /-- `stack[0..15]`, the return-address stack (R27). -/
  stack : Vector Addr 16
  /-- `sp`, the number of return addresses on the stack, 0 to 16 (R28). -/
  sp : Fin 17
  /-- `dt`, the delay timer (R29). -/
  dt : Byte
  /-- `st`, the sound timer (R29). -/
  st : Byte
  /-- `ram[0..4095]` (R30). -/
  ram : Memory
  /-- `fb[0..2047]`, the framebuffer, row by row: cell `64 * r + c` is bit `c` of row `r` (R31; log 4). -/
  fb : Vector (BitVec 64) 32
  /-- `keys[0..15]`, the key inputs: key `k` is bit `k` (R32; log 4). -/
  keys : BitVec 16
  /-- `halted` (R33). -/
  halted : Bool
  /-- `fault_cause`, code 0 being `none` (R33, R230). -/
  faultCause : Option Fault
  deriving DecidableEq, Repr

/-- The state after reset and at power-on (R36, R281): `pc` at the entry address, RAM at its reset contents, which is
no cell listed, and every other element zero. -/
def State.reset : State where
  pc := Config.entry
  x := Vector.replicate 16 0#8
  iReg := 0#16
  stack := Vector.replicate 16 0#16
  sp := 0
  dt := 0#8
  st := 0#8
  ram := []
  fb := Vector.replicate 32 0#64
  keys := 0#16
  halted := false
  faultCause := none

end Sys2Proof.Machine
end

