-- ==== Sys2Proof/Machine/Operands.lean ====
section
/-! DEFINITION. The operand forms: a general register read or written by its index, and the operand `NNN` as an address
(spec/10_state.md R21, spec/30_encoding.md R82). The hardware has no other operand form: no addressing mode, no load, no
store (spec/20_memory.md R63). -/

namespace Sys2Proof.Machine

/-- `x[i]` (R10). -/
def State.readReg (s : State) (i : RegIdx) : Byte := s.x[i]

/-- `x[i] <- v` (R10). No register is hard-wired (R21). -/
def State.writeReg (s : State) (i : RegIdx) (v : Byte) : State := { s with x := s.x.set i v }

/-- `zext_16(NNN)`, an absolute byte address (R82). -/
def target (nnn : Addr12) : Addr := nnn.setWidth 16

end Sys2Proof.Machine
end

