-- ==== Sys2Proof/Machine/Flags.lean ====
section
/-! DEFINITION. The arithmetic of the hardware and its one flag, `x[15]` (spec/10_state.md R22, spec/45_alu_register.md R186).
Sums are computed over the integers and narrowed at the end. -/

namespace Sys2Proof.Machine

/-- The flag register, general register 15 (R22). -/
def flagReg : RegIdx := 15

/-- The sum of two bytes, modulo 256 (R171, R185). -/
def sumByte (a b : Byte) : Byte := BitVec.ofNat 8 (a.toNat + b.toNat)

/-- The carry of the sum of two bytes as the flag's value: 1 when the unsigned sum exceeds 255, else 0 (R185). -/
def carryByte (a b : Byte) : Byte := if 255 < a.toNat + b.toNat then 1#8 else 0#8

/-- A timer's decrement, which saturates at 0: the one operation that is not modular (R186, R249). -/
def countDown (t : Byte) : Byte := BitVec.ofNat 8 (t.toNat - 1)

end Sys2Proof.Machine
end

