-- ==== Sys2Proof/Machine/Ops.lean ====
section
/-! DEFINITION. The named operations over the state: RAM, the program counter, the stack engine, fault entry, fetch, and the
framebuffer and key cells. -/

namespace Sys2Proof.Machine

/-! ### RAM (spec/20_memory.md) -/

/-- What an unlisted address reads as: the reset contents (R36), the font below 0x050 and 0x00 above. -/
def Memory.unlisted (a : Nat) : Byte := if h : a < 80 then Config.font ⟨a, h⟩ else 0#8

/-- The byte of RAM at an address. RAM has the addresses 0 to 4095 (R50); the operations that take an address from
the machine or the host check it or are too narrow to leave that range. -/
def Memory.read : Memory → Nat → Byte
  | [], a => Memory.unlisted a
  | (k, v) :: rest, a => if k = a then v else Memory.read rest a

/-- The cells that list `v` at `a`: none when that is what an unlisted address reads as. -/
def Memory.cell (a : Nat) (v : Byte) : Memory := if v = Memory.unlisted a then [] else [(a, v)]

/-- `ram[a] <- v`, keeping the canonical form. -/
def Memory.write : Memory → Nat → Byte → Memory
  | [], a, v => Memory.cell a v
  | (k, u) :: rest, a, v =>
    if a < k then Memory.cell a v ++ (k, u) :: rest
    else if a = k then Memory.cell a v ++ rest
    else (k, u) :: Memory.write rest a v

/-- The addresses rise strictly from at least `lo`, lie in RAM, and no cell equals the reset contents. -/
def Memory.wfFrom : Nat → Memory → Bool
  | _, [] => true
  | lo, (k, v) :: rest => decide (lo ≤ k) && decide (k < 4096) && !decide (v = Memory.unlisted k) && Memory.wfFrom (k + 1) rest

/-- The canonical form of RAM. -/
def Memory.wf (m : Memory) : Bool := Memory.wfFrom 0 m

/-- `MemWrite(a, 1, v)`, which only the host's RAM write performs (R10, R204). The address is 12 bits wide, so it is
always one of RAM. -/
def State.writeRam (s : State) (a : Addr12) (v : Byte) : State := { s with ram := s.ram.write a.toNat v }

/-! ### The program counter (spec/40_step_cycle.md, spec/42_control_flow.md, spec/43_skips.md) -/

/-- `pc <- v`. -/
def State.setPc (s : State) (v : Addr) : State := { s with pc := v }

/-- `pc <- pc + 2`, modulo 65536 (R25, decision D10): the fetch increment, and a skip (R160). -/
def State.advancePc (s : State) : State := s.setPc (s.pc + 2#16)

/-- `skip()` when the condition holds, applied to the post-fetch `pc` (R160). -/
def State.skipIf (s : State) (c : Bool) : State := if c then s.advancePc else s

/-! ### Fault entry (spec/60_exceptions.md R236) -/

/-- Fault entry with fault `f`: `halted <- 1` and `fault_cause <- f`, and nothing else. There is no handler and no
return from a fault (R239): only the `reset` transaction leaves the halted state. -/
def State.raise (s : State) (f : Fault) : State := { s with halted := true, faultCause := some f }

/-- The numeric code of `fault_cause`, 3 bits (R33, R230, decision D6). -/
def causeCode : Option Fault → BitVec 3
  | none => 0#3
  | some .fetchOutOfBounds => 1#3
  | some .illegalOpcode => 2#3
  | some .stackOverflow => 3#3
  | some .stackUnderflow => 4#3

/-- The end of an operation that completes or raises: fault entry is made in the state the operation left, which for
the operations of this hardware is the state it began in, since each tests before it writes (R10, R115, R237). -/
def State.orRaise (s : State) : Except Fault State → State
  | .ok t => t
  | .error f => s.raise f

/-! ### The stack engine (spec/42_control_flow.md R140, R141) -/

/-- `push(v)`: `StackOverflow` when `sp` is 16, else `stack[sp] <- v` and then `sp <- sp + 1`. -/
def State.push (s : State) (v : Addr) : Except Fault State :=
  if h : s.sp.val < 16 then
    .ok { s with stack := s.stack.set s.sp.val v h, sp := ⟨s.sp.val + 1, by omega⟩ }
  else .error .stackOverflow

/-- `pop()`: `StackUnderflow` when `sp` is 0, else `sp <- sp - 1` and the entry now at `sp`, which is not erased. -/
def State.pop (s : State) : Except Fault (Addr × State) :=
  if h : 0 < s.sp.val then
    .ok (s.stack[s.sp.val - 1], { s with sp := ⟨s.sp.val - 1, by omega⟩ })
  else .error .stackUnderflow

/-! ### Fetch (spec/40_step_cycle.md R112, R113) -/

/-- The two bytes at `pc` are RAM (R113): `pc + 1` is not reduced for this test. -/
def State.canFetch (s : State) : Bool := s.pc.toNat < 0x0FFF

/-- The word at `pc`, the byte at the lower address high (R52, R112). -/
def State.wordAtPc (s : State) : Word := wordOfBytes (s.ram.read s.pc.toNat) (s.ram.read (s.pc.toNat + 1))

/-- `fetch()`: the word at `pc`, and the state with `pc` advanced by 2. It raises `FetchOutOfBounds` before it reads or
changes anything when either byte is outside RAM, so the two `MemRead`s of R10 always meet a byte of RAM. -/
def State.fetch (s : State) : Except Fault (Word × State) :=
  if s.canFetch then .ok (s.wordAtPc, s.advancePc) else .error .fetchOutOfBounds

/-- A word laid out in RAM from an address, high byte first (R52), each byte by a RAM write. -/
def State.storeWord (s : State) (a : Nat) (w : Word) : State :=
  (s.writeRam (BitVec.ofNat 12 a) (bytesOfWord w).1).writeRam (BitVec.ofNat 12 (a + 1)) (bytesOfWord w).2

/-- A state that a tick can fetch from: the halt is left, and a `pc` with no instruction in RAM is at the entry address.
It is the state itself when it can fetch already. Only `withFetchWord` uses it (log 12). -/
def State.readyToFetch (s : State) : State :=
  { s with pc := if s.canFetch then s.pc else Config.entry, halted := false, faultCause := if s.halted then none else s.faultCause }

/-! ### The framebuffer and the keys (spec/10_state.md R31, R32) -/

/-- The index of the cell in column `c` of row `r`: `64 * r + c` (R31, decision D20). -/
def fbIndex (c : Fin 64) (r : Fin 32) : Fin 2048 := ⟨64 * r.val + c.val, by omega⟩

/-- `fb[k]`. -/
def State.fbRead (s : State) (k : Fin 2048) : Bool := (s.fb[k.val / 64]'(by omega)).getLsbD (k.val % 64)

/-- `fb[k] <- 0` for every `k` (R131). -/
def State.clearFb (s : State) : State := { s with fb := Vector.replicate 32 0#64 }

/-- `keys[k]`. -/
def State.keyRead (s : State) (k : Fin 16) : Bool := s.keys.getLsbD k.val

/-- `keys[k] <- b` (R205). -/
def State.writeKey (s : State) (k : Fin 16) (b : Bool) : State :=
  { s with keys := if b then s.keys ||| BitVec.twoPow 16 k.val else s.keys &&& ~~~(BitVec.twoPow 16 k.val) }

/-! ### The timers (spec/60_exceptions.md R246) -/

/-- `dt` and `st` as one timer tick leaves them: each lowered by 1 and kept at 0 (R246, R249). -/
def State.countTimers (s : State) : State := { s with dt := countDown s.dt, st := countDown s.st }

end Sys2Proof.Machine
end

