-- ==== Sys2Proof/Machine/Alu.lean ====
section
/-! DEFINITION. The register-to-register instructions of the 8 family (spec/45_alu_register.md). Both operands are read
before any write (R180). -/

namespace Sys2Proof.Machine

/-- R181: `x[X] <- x[Y]`. -/
def execLdReg (x y : RegIdx) (s : State) : Result State := .next (s.writeReg x (s.readReg y))

/-- R182: `x[X] <- x[X] | x[Y]`, written back (decision D2, conflict C4), no flag (decision D8). -/
def execOr (x y : RegIdx) (s : State) : Result State := .next (s.writeReg x (s.readReg x ||| s.readReg y))

/-- R183: `x[X] <- x[X] & x[Y]`, no flag (decision D8). -/
def execAnd (x y : RegIdx) (s : State) : Result State := .next (s.writeReg x (s.readReg x &&& s.readReg y))

/-- R184: `x[X] <- x[X] ^ x[Y]`, no flag (decision D8). -/
def execXor (x y : RegIdx) (s : State) : Result State := .next (s.writeReg x (s.readReg x ^^^ s.readReg y))

/-- R185: the sum modulo 256 to `x[X]`, then the carry to `x[15]`; with `X = 15` the carry is what remains
(decision D3, conflict C5). No carry is added in (conflict C6). -/
def execAddReg (x y : RegIdx) (s : State) : Result State :=
  .next ((s.writeReg x (sumByte (s.readReg x) (s.readReg y))).writeReg flagReg (carryByte (s.readReg x) (s.readReg y)))

end Sys2Proof.Machine
end

