-- ==== Sys2Proof/Machine/Control.lean ====
section
/-! DEFINITION. `RET`, `JP` and `CALL` (spec/42_control_flow.md). -/

namespace Sys2Proof.Machine

/-- R142: pop into `pc`, all 16 bits, with no range check (decision D27); `StackUnderflow` when the stack is empty.
0x00EE returns, as the table says (decision D1, conflict C3). -/
def execRet (s : State) : Result State := .next (s.orRaise (s.pop.map fun p => p.2.setPc p.1))

/-- R143: `pc <- zext_16(NNN)`. -/
def execJp (nnn : Addr12) (s : State) : Result State := .next (s.setPc (target nnn))

/-- R144: push the post-fetch `pc`, then `pc <- zext_16(NNN)`; `StackOverflow` when the stack is full, and then no
jump. -/
def execCall (nnn : Addr12) (s : State) : Result State :=
  .next (s.orRaise ((s.push s.pc).map fun t => t.setPc (target nnn)))

end Sys2Proof.Machine
end

