-- ==== Sys2Proof/Machine/Immediate.lean ====
section
/-! DEFINITION. `LD Vx, byte` and `ADD Vx, byte` (spec/44_immediate.md). -/

namespace Sys2Proof.Machine

/-- R170: `x[X] <- NN`. -/
def execLdImm (x : RegIdx) (nn : Byte) (s : State) : Result State := .next (s.writeReg x nn)

/-- R171: `x[X] <- (x[X] + NN) mod 256`, no carry flag set. -/
def execAddImm (x : RegIdx) (nn : Byte) (s : State) : Result State := .next (s.writeReg x (sumByte (s.readReg x) nn))

end Sys2Proof.Machine
end

