-- ==== Sys2Proof/Machine/Skips.lean ====
section
/-! DEFINITION. The conditional skips (spec/43_skips.md). -/

namespace Sys2Proof.Machine

/-- R161: skip if `x[X] == NN`. -/
def execSeImm (x : RegIdx) (nn : Byte) (s : State) : Result State := .next (s.skipIf (s.readReg x == nn))

/-- R162: skip if `x[X] != NN`. -/
def execSneImm (x : RegIdx) (nn : Byte) (s : State) : Result State := .next (s.skipIf (s.readReg x != nn))

/-- R163: skip if `x[X] == x[Y]`. -/
def execSeReg (x y : RegIdx) (s : State) : Result State := .next (s.skipIf (s.readReg x == s.readReg y))

end Sys2Proof.Machine
end

