-- ==== Sys2Proof/Machine/System.lean ====
section
/-! DEFINITION. `NOP` and `CLS` (spec/41_system_display.md). A meaning acts on the state after the fetch, whose `pc` is
already advanced by 2 (spec/40_step_cycle.md R112). -/

namespace Sys2Proof.Machine

/-- R130: nothing. -/
def execNop (s : State) : Result State := .next s

/-- R131: every framebuffer cell to 0. -/
def execCls (s : State) : Result State := .next s.clearFb

end Sys2Proof.Machine
end

