-- ==== Sys2Proof/Machine/Step.lean ====
section
/-! DEFINITION. The `tick` transition (spec/40_step_cycle.md R110), and a state with a given word where the next tick
fetches. -/

namespace Sys2Proof.Machine

/-- One tick (R110). A halted block does nothing (R111); a fetch or a decode that faults makes its fault entry, the
first in the state when the tick began, the second after the `pc` increment (R113, R114, R237); otherwise the
decoded instruction executes on the state after the fetch. -/
def step (s : State) : Host.Outcome State Fault Refusal :=
  if s.halted then .next s
  else
    match s.fetch with
    | .error f => .next (s.raise f)
    | .ok (w, t) =>
      match decode w with
      | .error _ => .next (t.raise .illegalOpcode)
      | .ok i => exec i t

/-- `s` with the instruction whose bits are `w` where the next tick fetches it: its two bytes stored at `pc` as RAM
writes would (R204), high byte first. A halted `s`, or one whose `pc` has no instruction in RAM, is first made
one that fetches (`State.readyToFetch`; log 12). -/
def State.withFetchWord (s : State) (nbits w : Nat) : State :=
  s.readyToFetch.storeWord s.readyToFetch.pc.toNat (BitVec.ofNat 16 (w % 2 ^ nbits))

end Sys2Proof.Machine
end

