-- ==== Sys2Proof/Machine/Transactions.lean ====
section
/-! DEFINITION. The host interface (spec/46_host_interface.md): the transactions of R200, the timer tick of
spec/60_exceptions.md R246, the outputs of R212 and the order of simultaneous requests of R209. Which transaction comes
next is the host's free choice (R201), so it is an argument here and not state (log 5). -/

namespace Sys2Proof.Machine

/-- An element of the state that the host may read (R206). -/
inductive Element where
  | pc
  | x (i : RegIdx)
  | iReg
  | stack (k : Fin 16)
  | sp
  | dt
  | st
  | ram (a : Addr12)
  | fb (k : Fin 2048)
  | keys (k : Fin 16)
  | halted
  | faultCause
  deriving DecidableEq, Repr

/-- The transactions by which the host drives the block (R200). The status outputs are `outputs` below. -/
inductive Transaction where
  /-- `reset` (R202). -/
  | reset
  /-- `tick` (R203). -/
  | tick
  /-- `tick_timers` (R207). -/
  | tickTimers
  /-- RAM write of a byte at a 12-bit address (R204). -/
  | ramWrite (a : Addr12) (v : Byte)
  /-- Key write (R205). -/
  | keyWrite (k : Fin 16) (b : Bool)
  /-- State read (R206). -/
  | stateRead (e : Element)
  deriving DecidableEq, Repr

/-- The value of an element as the 16 bits of the debug read-out (R206, R208). -/
def readElement (s : State) : Element → BitVec 16
  | .pc => s.pc
  | .x i => (s.readReg i).setWidth 16
  | .iReg => s.iReg
  | .stack k => s.stack[k]
  | .sp => BitVec.ofNat 16 s.sp.val
  | .dt => s.dt.setWidth 16
  | .st => s.st.setWidth 16
  | .ram a => (s.ram.read a.toNat).setWidth 16
  | .fb k => (BitVec.ofBool (s.fbRead k)).setWidth 16
  | .keys k => (BitVec.ofBool (s.keyRead k)).setWidth 16
  | .halted => (BitVec.ofBool s.halted).setWidth 16
  | .faultCause => (causeCode s.faultCause).setWidth 16

/-- The state a transaction leaves. `reset` reads nothing of the state before (R280); a timer tick, a RAM write, a key
write and a read work in the halted state as in any other (R238, R254). -/
def transact (t : Transaction) (s : State) : Result State :=
  match t with
  | .reset => .next State.reset
  | .tick => step s
  | .tickTimers => .next s.countTimers
  | .ramWrite a v => .next (s.writeRam a v)
  | .keyWrite k b => .next (s.writeKey k b)
  | .stateRead _ => .next s

/-- Whether the transaction, performed in state `s`, emits `tone_end`: exactly a timer tick that finds `st` at 1 (R246,
R250, conflict C1). The event is not state (R35). -/
def toneEnd (t : Transaction) (s : State) : Bool :=
  match t with
  | .tickTimers => s.st == 1#8
  | .reset => false
  | .tick => false
  | .ramWrite _ _ => false
  | .keyWrite _ _ => false
  | .stateRead _ => false

/-- What the host receives from a state read (R206); the other transactions return nothing. -/
def readOut (t : Transaction) (s : State) : Option (BitVec 16) :=
  match t with
  | .stateRead e => some (readElement s e)
  | .reset => none
  | .tick => none
  | .tickTimers => none
  | .ramWrite _ _ => none
  | .keyWrite _ _ => none

/-- Transactions one after another, each on the state the one before left (R58, R201). -/
def transactAll : List Transaction → State → Result State
  | [], s => .next s
  | t :: ts, s =>
    match transact t s with
    | .next s' => transactAll ts s'
    | .fault f => .fault f
    | .refused r => .refused r

/-- The `tone_end` event of each of a list of transactions, in order. -/
def toneEnds : List Transaction → State → List Bool
  | [], _ => []
  | t :: ts, s =>
    toneEnd t s ::
      match transact t s with
      | .next s' => toneEnds ts s'
      | .fault _ => []
      | .refused _ => []

/-- `sound_active` (R251). -/
def State.soundActive (s : State) : Bool := s.st != 0#8

/-- The continuous outputs of R212, as the ports of R208 have them. -/
structure Outputs where
  halted : Bool
  faultCause : BitVec 3
  soundActive : Bool
  dtOut : Byte
  stOut : Byte
  deriving DecidableEq, Repr

/-- The outputs of a state. None feeds back into the block (R212). -/
def outputs (s : State) : Outputs where
  halted := s.halted
  faultCause := causeCode s.faultCause
  soundActive := s.soundActive
  dtOut := s.dt
  stOut := s.st

/-- The requests presented on one accepting clock edge (R208, R209). -/
structure Requests where
  rst : Bool
  ramWrite : Option (Addr12 × Byte)
  timerReq : Bool
  stepReq : Bool
  deriving DecidableEq, Repr

/-- The transactions that simultaneous requests stand for, in the order of R209 (decision D14): reset alone when it
is asserted, else the RAM write, then the timer tick, then the tick. -/
def Requests.transactions (r : Requests) : List Transaction :=
  if r.rst then [.reset]
  else
    (match r.ramWrite with
      | some (a, v) => [.ramWrite a v]
      | none => []) ++
    (if r.timerReq then [.tickTimers] else []) ++ (if r.stepReq then [.tick] else [])

/-- The block at the end of an accepting clock edge: its requests performed one after another, each as a whole
transaction (R209). -/
def serve (r : Requests) (s : State) : Result State := transactAll r.transactions s

/-- The keys as the port `key_in` sets them between transactions: `keys[k]` follows `key_in[k]` (R208, decision D23). -/
def State.followKeys (s : State) (keyIn : BitVec 16) : State := { s with keys := keyIn }

end Sys2Proof.Machine
end

