-- ==== Sys2Proof/Safety.lean ====
section
/-! DEFINITION. What statements are made of: a good state, the end of a run, the invariant of spec/10_state.md R38, and which
elements two states share. -/

namespace Sys2Proof.Machine

/-- A good state is one that is not halted: the halted state records a fault and is never a good final state
(spec/60_exceptions.md R238; log 1). -/
abbrev State.good (s : State) : Prop := s.halted = false

/-- The state a run may end in, the parameter `END_OF_RUN` (decision D18; log 8): good, and the instruction at `pc` is a
jump to itself (spec/40_step_cycle.md R118). -/
abbrev State.parked (s : State) : Prop :=
  s.good ∧ s.pc.toNat ≤ 0x0FFE ∧ s.wordAtPc = 0x1000#16 ||| s.pc

/-- `halted` is 1 exactly when `fault_cause` is not 0 (R33). -/
abbrev State.causeMatchesHalt (s : State) : Prop := s.halted = true ↔ s.faultCause ≠ none

/-- Every live stack entry, below `sp`, is at most 0x1000 (R38). -/
abbrev State.liveEntriesBounded (s : State) : Prop :=
  ∀ k : Fin 16, k.val < s.sp.val → s.stack[k].toNat ≤ 0x1000

/-- The invariant of R38, less what the host may write and what the types say already (`sp <= 16`, `fault_cause <= 4`),
with the canonical form of RAM (log 3). -/
structure State.Inv (s : State) : Prop where
  pcBounded : s.pc.toNat ≤ 0x1002
  liveEntries : s.liveEntriesBounded
  iRegZero : s.iReg = 0#16
  causeMatches : s.causeMatchesHalt
  ramCanonical : s.ram.wf = true

/-! ### Frames: elements that two states share -/

/-- The same general registers. -/
abbrev SameRegs (s t : State) : Prop := ∀ j : RegIdx, t.readReg j = s.readReg j

/-- The same general registers but those in `changed`. -/
abbrev SameRegsExcept (changed : List RegIdx) (s t : State) : Prop :=
  ∀ j : RegIdx, j ∉ changed → t.readReg j = s.readReg j

/-- The same call stack and stack pointer. -/
abbrev SameStack (s t : State) : Prop := t.sp = s.sp ∧ ∀ k : Fin 16, t.stack[k] = s.stack[k]

/-- The same framebuffer. -/
abbrev SameFb (s t : State) : Prop := ∀ k : Fin 2048, t.fbRead k = s.fbRead k

/-- The same byte at every address of RAM. -/
abbrev SameRam (s t : State) : Prop := ∀ a : Nat, t.ram.read a = s.ram.read a

/-- The same keys. -/
abbrev SameKeys (s t : State) : Prop := ∀ k : Fin 16, t.keyRead k = s.keyRead k

/-- The same address register, timers, RAM and keys: what no tick changes (spec/40_step_cycle.md R116). -/
abbrev SameOutside (s t : State) : Prop :=
  t.iReg = s.iReg ∧ t.dt = s.dt ∧ t.st = s.st ∧ SameRam s t ∧ SameKeys s t

/-- The same fault status. -/
abbrev SameStatus (s t : State) : Prop := t.halted = s.halted ∧ t.faultCause = s.faultCause

/-- Every element the same but the general registers and `pc`. -/
abbrev SameButRegsAndPc (s t : State) : Prop := SameStack s t ∧ SameFb s t ∧ SameOutside s t ∧ SameStatus s t

/-- Every element the same but `pc`. -/
abbrev SameButPc (s t : State) : Prop := SameRegs s t ∧ SameButRegsAndPc s t

/-- Every element the same but the timers: what a timer tick leaves alone (spec/60_exceptions.md R246). -/
abbrev SameButTimers (s t : State) : Prop :=
  t.pc = s.pc ∧ SameRegs s t ∧ t.iReg = s.iReg ∧ SameStack s t ∧ SameRam s t ∧ SameFb s t ∧ SameKeys s t ∧ SameStatus s t

/-- Two states that agree on all that a tick depends on (spec/40_step_cycle.md R117): `halted`, `fault_cause`, `pc`, RAM, the
registers, `sp` and the stack entries below it. They may differ in `keys`, `dt`, `st`, `fb`, `i_reg` and the dead entries. -/
structure AgreeOnCore (s t : State) : Prop where
  pc : t.pc = s.pc
  regs : SameRegs s t
  sp : t.sp = s.sp
  live : ∀ k : Fin 16, k.val < s.sp.val → t.stack[k] = s.stack[k]
  ram : SameRam s t
  status : SameStatus s t

end Sys2Proof.Machine
end

