-- ==== Sys2Proof/Certificates/Slice0/Obligations.lean ====
section
/-! DEFINITION. The statements for the provers. Each docstring names the rules of spec/ that the statement formalises. A meaning
acts on the state after the fetch, so in a statement about `exec` the `pc` of the state it is applied to is the
post-fetch `pc` (spec/40_step_cycle.md R112). -/

open Sys2Proof Sys2Proof.Machine

/-! ### Reset -/

/-- R280: the reset transaction, from any state and reading nothing of it, leaves every element at its reset value;
it emits no `tone_end`. The font is the free value `Config.font` (log 2). -/
def Obligations.ResetRestoresEveryElement : Prop :=
  ∀ s : State, toneEnd .reset s = false ∧ ∃ t, transact .reset s = .next t ∧ t = State.reset ∧
    t.pc = 0x0200#16 ∧ (∀ i : RegIdx, t.readReg i = 0#8) ∧ t.iReg = 0#16 ∧ (∀ k : Fin 16, t.stack[k] = 0#16) ∧
    t.sp = 0 ∧ t.dt = 0#8 ∧ t.st = 0#8 ∧
    (∀ (k : Nat) (h : k < 80), t.ram.read k = Config.font ⟨k, h⟩) ∧
    (∀ k : Nat, 80 ≤ k → k ≤ 4095 → t.ram.read k = 0#8) ∧
    (∀ k : Fin 2048, t.fbRead k = false) ∧ (∀ k : Fin 16, t.keyRead k = false) ∧
    t.halted = false ∧ causeCode t.faultCause = 0#3

/-- R286: with nothing loaded, 1792 ticks from reset execute `NOP` and change nothing but `pc`, and the next raises
`FetchOutOfBounds`. -/
def Obligations.UnloadedRamRunsAsNops : Prop :=
  (∀ n : Nat, n ≤ 1792 → transactAll (List.replicate n .tick) State.reset =
    .next (State.reset.setPc (BitVec.ofNat 16 (0x0200 + 2 * n)))) ∧
  transactAll (List.replicate 1793 .tick) State.reset = .next ((State.reset.setPc 0x1000#16).raise .fetchOutOfBounds)

/-! ### Encoding -/

/-- The words W1 to W29 of spec/95_test_vectors.md section 2.2, some of each family, decode as listed there. -/
def Obligations.SampleWordsDecode : Prop :=
  decode 0x0000#16 = .ok .nop ∧ decode 0x00E0#16 = .ok .cls ∧ decode 0x00EE#16 = .ok .ret ∧
  decode 0x0123#16 = .error .zeroFamily ∧ decode 0x1FFF#16 = .ok (.jp 0xFFF#12) ∧
  decode 0x2ABC#16 = .ok (.call 0xABC#12) ∧ decode 0x3F00#16 = .ok (.seImm 15 0x00#8) ∧
  decode 0x4A55#16 = .ok (.sneImm 10 0x55#8) ∧ decode 0x5120#16 = .ok (.seReg 1 2) ∧
  decode 0x512F#16 = .error .fiveFamily ∧ decode 0x6F12#16 = .ok (.ldImm 15 0x12#8) ∧
  decode 0x7001#16 = .ok (.addImm 0 0x01#8) ∧ decode 0x8AB0#16 = .ok (.ldReg 10 11) ∧
  decode 0x8AB1#16 = .ok (.orReg 10 11) ∧ decode 0x8AB2#16 = .ok (.andReg 10 11) ∧
  decode 0x8AB3#16 = .ok (.xorReg 10 11) ∧ decode 0x8AB4#16 = .ok (.addReg 10 11) ∧
  decode 0x8ABE#16 = .error .eightFamily ∧ decode 0x9AB0#16 = .error .highFamily

/-- R82: each operand is its slice of the word, unsigned, and `NNN` is zero-extended to the 16 bits of `pc`. -/
def Obligations.OperandsAreSlicesOfTheWord : Prop :=
  ∀ w : Word, (fieldX w).val = w.toNat / 256 % 16 ∧ (fieldY w).val = w.toNat / 16 % 16 ∧
    (fieldNN w).toNat = w.toNat % 256 ∧ (fieldNNN w).toNat = w.toNat % 4096 ∧
    (target (fieldNNN w)).toNat = w.toNat % 4096

/-- R80, R81, R86: every well-formed instruction decodes from its own word with every operand, also from its two bytes, high
byte first, whatever bytes follow. -/
def Obligations.DecodeOfEncodeIsTheInstruction : Prop :=
  ∀ i : Instr, WellFormed i = true → decode (encode i) = .ok i ∧
    ∀ rest : List Byte,
      decodeBytes ((bytesOfWord (encode i)).1 :: (bytesOfWord (encode i)).2 :: rest) = .ok (i, rest)

/-- R83, R86: a word that decodes is the word of the instruction it decodes to, so no two words share one. -/
def Obligations.EncodeOfDecodeIsTheWord : Prop :=
  ∀ (w : Word) (i : Instr), decode w = .ok i → encode i = w

/-- R84, R86: a word decodes to an instruction whose row of the opcode map it matches, or it matches no row and is illegal; and
no word matches two rows. -/
def Obligations.DecodeFollowsTheOpcodeMap : Prop :=
  (∀ w : Word, (∃ i, decode w = .ok i ∧ i.row ∈ opcodeTable ∧ i.row.matches w = true) ∨
    (∃ c, decode w = .error c) ∧ ∀ r ∈ opcodeTable, r.matches w = false) ∧
  ∀ (w : Word) (r q : OpcodeRow), r ∈ opcodeTable → q ∈ opcodeTable → r.matches w = true → q.matches w = true → r = q

/-- R85, R87, R88, R90: the illegal words are exactly the four classes of R90, with `n3` and `n0` as the numbers they are. -/
def Obligations.IllegalWordsAreTheFourClasses : Prop :=
  ∀ w : Word,
    (decode w = .error .zeroFamily ↔ w.toNat / 4096 = 0 ∧ w ≠ 0x0000#16 ∧ w ≠ 0x00E0#16 ∧ w ≠ 0x00EE#16) ∧
    (decode w = .error .fiveFamily ↔ w.toNat / 4096 = 5 ∧ w.toNat % 16 ≠ 0) ∧
    (decode w = .error .eightFamily ↔ w.toNat / 4096 = 8 ∧ 5 ≤ w.toNat % 16) ∧
    (decode w = .error .highFamily ↔ 9 ≤ w.toNat / 4096)

/-- R94, R95, R86 (decision D17): each of the fifteen assembler forms, its numbers in range, becomes one word, the pattern of
its row with its numbers in their digits; a form with a register above 15, a byte above 255 or an address above 0xFFF becomes
nothing. -/
def Obligations.LinesAssembleToTheirWords : Prop :=
  (∀ x y b a : Nat, x < 16 → y < 16 → b < 256 → a < 4096 →
    Line.nop.assemble.map encode = some 0x0000#16 ∧ Line.cls.assemble.map encode = some 0x00E0#16 ∧
    Line.ret.assemble.map encode = some 0x00EE#16 ∧
    (Line.jp a).assemble.map encode = some (BitVec.ofNat 16 (0x1000 + a)) ∧
    (Line.call a).assemble.map encode = some (BitVec.ofNat 16 (0x2000 + a)) ∧
    (Line.seImm x b).assemble.map encode = some (BitVec.ofNat 16 (0x3000 + 256 * x + b)) ∧
    (Line.sneImm x b).assemble.map encode = some (BitVec.ofNat 16 (0x4000 + 256 * x + b)) ∧
    (Line.seReg x y).assemble.map encode = some (BitVec.ofNat 16 (0x5000 + 256 * x + 16 * y)) ∧
    (Line.ldImm x b).assemble.map encode = some (BitVec.ofNat 16 (0x6000 + 256 * x + b)) ∧
    (Line.addImm x b).assemble.map encode = some (BitVec.ofNat 16 (0x7000 + 256 * x + b)) ∧
    (Line.ldReg x y).assemble.map encode = some (BitVec.ofNat 16 (0x8000 + 256 * x + 16 * y)) ∧
    (Line.orReg x y).assemble.map encode = some (BitVec.ofNat 16 (0x8001 + 256 * x + 16 * y)) ∧
    (Line.andReg x y).assemble.map encode = some (BitVec.ofNat 16 (0x8002 + 256 * x + 16 * y)) ∧
    (Line.xorReg x y).assemble.map encode = some (BitVec.ofNat 16 (0x8003 + 256 * x + 16 * y)) ∧
    (Line.addReg x y).assemble.map encode = some (BitVec.ofNat 16 (0x8004 + 256 * x + 16 * y))) ∧
  ∀ x y b a : Nat,
    (4096 ≤ a → (Line.jp a).assemble = none ∧ (Line.call a).assemble = none) ∧
    (16 ≤ x ∨ 256 ≤ b → (Line.seImm x b).assemble = none ∧ (Line.sneImm x b).assemble = none ∧
      (Line.ldImm x b).assemble = none ∧ (Line.addImm x b).assemble = none) ∧
    (16 ≤ x ∨ 16 ≤ y → (Line.seReg x y).assemble = none ∧ (Line.ldReg x y).assemble = none ∧
      (Line.orReg x y).assemble = none ∧ (Line.andReg x y).assemble = none ∧ (Line.xorReg x y).assemble = none ∧
      (Line.addReg x y).assemble = none)

/-! ### The tick -/

/-- R112: fetch reads the byte at `pc` as the high byte and the next as the low byte, at any parity, advances `pc` by 2 and touches
nothing else; with `pc >= 0x0FFF` it raises `FetchOutOfBounds` and gives no state, so nothing has been changed. -/
def Obligations.FetchReadsTwoBytesHighFirst : Prop :=
  ∀ s : State,
    (s.pc.toNat ≤ 0x0FFE → ∃ w t, s.fetch = .ok (w, t) ∧
      w.toNat = 256 * (s.ram.read s.pc.toNat).toNat + (s.ram.read (s.pc.toNat + 1)).toNat ∧
      t.pc.toNat = s.pc.toNat + 2 ∧ SameButPc s t) ∧
    (0x0FFF ≤ s.pc.toNat → s.fetch = .error .fetchOutOfBounds)

/-- R110, R114, R115: a tick of a block that is not halted, whose two bytes at `pc` are in RAM and decode to an instruction, is
that instruction's meaning applied to the state with `pc` advanced by 2. -/
def Obligations.StepRunsTheDecodedInstruction : Prop :=
  ∀ (s : State) (i : Instr), s.halted = false → s.pc.toNat ≤ 0x0FFE →
    decode (wordOfBytes (s.ram.read s.pc.toNat) (s.ram.read (s.pc.toNat + 1))) = .ok i → WellFormed i = true →
    step s = exec i (s.setPc (s.pc + 2#16))

/-- R113, R231, R236 and, for what is left unchanged, R237 (decision D5): a tick with `pc >= 0x0FFF` raises `FetchOutOfBounds`,
code 1, and changes nothing else, `pc` included. -/
def Obligations.FetchOutsideRamHalts : Prop :=
  ∀ s : State, s.halted = false → 0x0FFF ≤ s.pc.toNat → ∃ t, step s = .next t ∧
    t.halted = true ∧ causeCode t.faultCause = 1#3 ∧ t.pc = s.pc ∧
    SameRegs s t ∧ SameStack s t ∧ SameFb s t ∧ SameOutside s t

/-- R90, R114, R232, R236 and R237 (decision D5): a tick that fetches an illegal word raises `IllegalOpcode`, code 2, with `pc`
advanced by 2 and nothing else changed. The word is illegal by the classes of R90. -/
def Obligations.IllegalWordHalts : Prop :=
  ∀ s : State, s.halted = false → s.pc.toNat ≤ 0x0FFE →
    (s.wordAtPc.toNat / 4096 = 0 ∧ s.wordAtPc.toNat ≠ 0 ∧ s.wordAtPc.toNat ≠ 0x00E0 ∧ s.wordAtPc.toNat ≠ 0x00EE ∨
      s.wordAtPc.toNat / 4096 = 5 ∧ s.wordAtPc.toNat % 16 ≠ 0 ∨
      s.wordAtPc.toNat / 4096 = 8 ∧ 5 ≤ s.wordAtPc.toNat % 16 ∨ 9 ≤ s.wordAtPc.toNat / 4096) →
    ∃ t, step s = .next t ∧ t.halted = true ∧ causeCode t.faultCause = 2#3 ∧ t.pc.toNat = s.pc.toNat + 2 ∧
      SameRegs s t ∧ SameStack s t ∧ SameFb s t ∧ SameOutside s t

/-- R111 (decision D4): a tick of a halted block changes nothing. -/
def Obligations.HaltedTickChangesNothing : Prop :=
  ∀ s : State, s.halted = true → step s = .next s

/-- R110: a tick has no third outcome: from every state it answers a next state, faults being fault entries (log 1). -/
def Obligations.EveryTickAnswersNext : Prop :=
  ∀ s : State, ∃ t, step s = .next t

/-- R24: `pc` at the end of a tick, by instruction, with the halts the table names. The sums are of natural numbers: nothing
wraps. -/
def Obligations.PcAtTheEndOfATick : Prop :=
  ∀ s : State, s.halted = false →
    (0x0FFF ≤ s.pc.toNat → ∃ t, step s = .next t ∧ t.pc = s.pc) ∧
    (s.pc.toNat ≤ 0x0FFE → ∃ t, step s = .next t ∧
      match decode s.wordAtPc with
      | .ok .nop | .ok .cls | .ok (.ldImm _ _) | .ok (.addImm _ _) | .ok (.ldReg _ _) | .ok (.orReg _ _)
      | .ok (.andReg _ _) | .ok (.xorReg _ _) | .ok (.addReg _ _) => t.pc.toNat = s.pc.toNat + 2
      | .ok (.seImm x nn) => t.pc.toNat = s.pc.toNat + if s.readReg x = nn then 4 else 2
      | .ok (.sneImm x nn) => t.pc.toNat = s.pc.toNat + if s.readReg x = nn then 2 else 4
      | .ok (.seReg x y) => t.pc.toNat = s.pc.toNat + if s.readReg x = s.readReg y then 4 else 2
      | .ok (.jp nnn) => t.pc.toNat = nnn.toNat
      | .ok (.call nnn) =>
        (s.sp.val < 16 → t.pc.toNat = nnn.toNat) ∧
        (s.sp.val = 16 → t.pc.toNat = s.pc.toNat + 2 ∧ t.halted = true)
      | .ok .ret =>
        (∀ k : Fin 16, s.sp.val = k.val + 1 → t.pc = s.stack[k]) ∧
        (s.sp.val = 0 → t.pc.toNat = s.pc.toNat + 2 ∧ t.halted = true)
      | .error _ => t.pc.toNat = s.pc.toNat + 2 ∧ t.halted = true)

/-- R230, R235: a tick raises at most one fault, the first that applies in the order fetch, decode, stack; where none applies
the block is not halted. Premise: the fault status is consistent (R33), which `EveryStepKeepsTheInvariant` keeps. -/
def Obligations.FaultsArisePreciselyInOrder : Prop :=
  ∀ s : State, s.halted = false → s.causeMatchesHalt → ∃ t, step s = .next t ∧ t.causeMatchesHalt ∧
    causeCode t.faultCause =
      if 0x0FFF ≤ s.pc.toNat then 1#3
      else match decode s.wordAtPc with
        | .error _ => 2#3
        | .ok (.call _) => if s.sp.val = 16 then 3#3 else 0#3
        | .ok .ret => if s.sp.val = 0 then 4#3 else 0#3
        | .ok _ => 0#3

/-- R237 (decision D5): a tick that halts the block has changed nothing but the fault status and, except for code 1, `pc`, which
is 2 further. -/
def Obligations.FaultingTickChangesNothingElse : Prop :=
  ∀ s t : State, s.halted = false → step s = .next t → t.halted = true →
    (causeCode t.faultCause = 1#3 ∧ t.pc = s.pc ∨
      (causeCode t.faultCause = 2#3 ∨ causeCode t.faultCause = 3#3 ∨ causeCode t.faultCause = 4#3) ∧
        t.pc.toNat = s.pc.toNat + 2) ∧
    SameRegs s t ∧ SameStack s t ∧ SameFb s t ∧ SameOutside s t

/-- R116: a tick never changes RAM, `i_reg`, the timers or the keys; and one that completes changes, besides `pc`, at most the
general register `x[X]` of the fetched word and, by an `ADD Vx, Vy` (R22), `x[15]`, and these only where the word is that of a
register operation, 0x6000 or above; or, by a `CALL`, `sp` and the stack entry at the old `sp`; or, by a `RET`, `sp` alone; or, by
a `CLS`, the framebuffer. -/
def Obligations.TickChangesAtMostWhatR116Lists : Prop :=
  ∀ s t : State, step s = .next t → SameOutside s t ∧
    (s.halted = false → t.halted = false → SameStatus s t ∧
      ((SameRegsExcept [fieldX s.wordAtPc, 15] s t ∧ SameStack s t ∧ SameFb s t ∧
          (s.wordAtPc &&& 0xF00F#16 ≠ 0x8004#16 → SameRegsExcept [fieldX s.wordAtPc] s t) ∧
          (s.wordAtPc.toNat < 0x6000 → SameRegs s t)) ∨
        (s.wordAtPc &&& 0xF000#16 = 0x2000#16 ∧ SameRegs s t ∧ SameFb s t ∧ t.sp.val = s.sp.val + 1 ∧
          ∀ k : Fin 16, k.val ≠ s.sp.val → t.stack[k] = s.stack[k]) ∨
        (s.wordAtPc = 0x00EE#16 ∧ SameRegs s t ∧ SameFb s t ∧ t.sp.val + 1 = s.sp.val ∧
          ∀ k : Fin 16, t.stack[k] = s.stack[k]) ∨
        (s.wordAtPc = 0x00E0#16 ∧ SameRegs s t ∧ SameStack s t ∧ ∀ k : Fin 2048, t.fbRead k = false)))

/-- R117: what a tick does to the core depends on nothing but the core: states that differ only in the keys, the timers, the
framebuffer, `i_reg` and the stack entries at or above `sp` lead to states that agree again. -/
def Obligations.TickDependsOnTheCoreAlone : Prop :=
  ∀ s s' t : State, AgreeOnCore s s' → step s = .next t → ∃ t', step s' = .next t' ∧ AgreeOnCore t t'

/-- R118, R143 (d): a parked block, whose instruction at `pc` is a jump to itself, is a fixed point of the tick. -/
def Obligations.JumpToItselfIsAFixedPoint : Prop :=
  ∀ s : State, s.parked → step s = .next s

/-! ### The instructions -/

/-- R130: the word 0x0000, and it alone, is `NOP`, every word of the 0 family that is no row's being illegal; `NOP` changes
nothing. -/
def Obligations.NopChangesNothing : Prop :=
  (∀ w : Word, decode w = .ok .nop ↔ w = 0x0000#16) ∧
  (∀ w : Word, w.toNat < 0x1000 → w ≠ 0x0000#16 → w ≠ 0x00E0#16 → w ≠ 0x00EE#16 → decode w = .error .zeroFamily) ∧
  ∀ s : State, ∃ t, exec .nop s = .next t ∧ t.pc = s.pc ∧ SameButPc s t

/-- R131: the word 0x00E0, and it alone, is `CLS`, which writes 0 to every framebuffer cell, whatever was there, and touches
nothing else. -/
def Obligations.ClsClearsEveryCell : Prop :=
  (∀ w : Word, decode w = .ok .cls ↔ w = 0x00E0#16) ∧
  ∀ s : State, ∃ t, exec .cls s = .next t ∧ (∀ k : Fin 2048, t.fbRead k = false) ∧
    t.pc = s.pc ∧ SameRegs s t ∧ SameStack s t ∧ SameOutside s t ∧ SameStatus s t

/-- R142, R141 (decisions D1, D9, D27): the word 0x00EE, and it alone, is `RET`, which with the stack not empty pops the newest
entry into `pc`, all 16 bits, erases no entry and touches nothing else. -/
def Obligations.RetPopsIntoPc : Prop :=
  (∀ w : Word, decode w = .ok .ret ↔ w = 0x00EE#16) ∧
  ∀ (s : State) (k : Fin 16), s.sp.val = k.val + 1 → ∃ t, exec .ret s = .next t ∧
    t.pc = s.stack[k] ∧ t.sp.val = k.val ∧ (∀ j : Fin 16, t.stack[j] = s.stack[j]) ∧
    SameRegs s t ∧ SameFb s t ∧ SameOutside s t ∧ SameStatus s t

/-- R142, R234, R236: `RET` with an empty stack raises `StackUnderflow`, code 4; `pc` stays at the post-fetch value and nothing
else changes. -/
def Obligations.RetOnAnEmptyStackHalts : Prop :=
  ∀ s : State, s.sp.val = 0 → ∃ t, exec .ret s = .next t ∧ t.halted = true ∧ causeCode t.faultCause = 4#3 ∧
    t.pc = s.pc ∧ SameRegs s t ∧ SameStack s t ∧ SameFb s t ∧ SameOutside s t

/-- R143: the words 1NNN are `JP`, which sets `pc` to `NNN`, any target, and touches nothing else. -/
def Obligations.JpSetsPcToItsAddress : Prop :=
  ∀ nnn : Addr12,
    (∀ w : Word, decode w = .ok (.jp nnn) ↔ w &&& 0xF000#16 = 0x1000#16 ∧ fieldNNN w = nnn) ∧
    ∀ s : State, ∃ t, exec (.jp nnn) s = .next t ∧ t.pc.toNat = nnn.toNat ∧ SameButPc s t

/-- R144, R140 (decision D9): the words 2NNN are `CALL`, which with the stack not full writes the post-fetch `pc` to the entry at
`sp`, adds 1 to `sp`, sets `pc` to `NNN` and touches nothing else. -/
def Obligations.CallPushesAndJumps : Prop :=
  ∀ nnn : Addr12,
    (∀ w : Word, decode w = .ok (.call nnn) ↔ w &&& 0xF000#16 = 0x2000#16 ∧ fieldNNN w = nnn) ∧
    ∀ s : State, s.sp.val < 16 → ∃ t, exec (.call nnn) s = .next t ∧ t.pc.toNat = nnn.toNat ∧
      t.sp.val = s.sp.val + 1 ∧ (∀ k : Fin 16, t.stack[k] = if k.val = s.sp.val then s.pc else s.stack[k]) ∧
      SameRegs s t ∧ SameFb s t ∧ SameOutside s t ∧ SameStatus s t

/-- R144, R233, R236: `CALL` with a full stack raises `StackOverflow`, code 3; nothing is pushed, the jump is not made and
nothing else changes. -/
def Obligations.CallOnAFullStackHalts : Prop :=
  ∀ (nnn : Addr12) (s : State), s.sp.val = 16 → ∃ t, exec (.call nnn) s = .next t ∧
    t.halted = true ∧ causeCode t.faultCause = 3#3 ∧ t.pc = s.pc ∧
    SameRegs s t ∧ SameStack s t ∧ SameFb s t ∧ SameOutside s t

/-- R145: a `RET` that meets the `sp` and the entry that a `CALL` left, whatever happened between, sets `pc` to the address
after the `CALL` (its post-fetch `pc`) and restores `sp`. -/
def Obligations.RetUndoesCall : Prop :=
  ∀ (nnn : Addr12) (s t u : State) (k : Fin 16), s.sp.val = k.val → exec (.call nnn) s = .next t →
    u.sp = t.sp → u.stack[k] = t.stack[k] →
    ∃ v, exec .ret u = .next v ∧ v.pc = s.pc ∧ v.sp = s.sp

/-- R161: the words 3XNN are `SE Vx, byte`, which adds 2 to the post-fetch `pc` exactly when `x[X] = NN` and touches
nothing else. -/
def Obligations.SeImmSkipsOnEqual : Prop :=
  ∀ (x : RegIdx) (nn : Byte),
    (∀ w : Word, decode w = .ok (.seImm x nn) ↔ w &&& 0xF000#16 = 0x3000#16 ∧ fieldX w = x ∧ fieldNN w = nn) ∧
    ∀ s : State, ∃ t, exec (.seImm x nn) s = .next t ∧
      t.pc = (if s.readReg x = nn then s.pc + 2#16 else s.pc) ∧ SameButPc s t

/-- R162: the words 4XNN are `SNE Vx, byte`, which adds 2 to the post-fetch `pc` exactly when `x[X]` is not `NN`, so that of
it and `SE Vx, byte` one skips and the other does not, and touches nothing else. -/
def Obligations.SneImmSkipsOnUnequal : Prop :=
  ∀ (x : RegIdx) (nn : Byte),
    (∀ w : Word, decode w = .ok (.sneImm x nn) ↔ w &&& 0xF000#16 = 0x4000#16 ∧ fieldX w = x ∧ fieldNN w = nn) ∧
    ∀ s : State, ∃ t u, exec (.sneImm x nn) s = .next t ∧ exec (.seImm x nn) s = .next u ∧
      t.pc = (if s.readReg x = nn then s.pc else s.pc + 2#16) ∧ (t.pc = s.pc ↔ u.pc ≠ s.pc) ∧ SameButPc s t

/-- R163: the words 5XY0 are `SE Vx, Vy`, those of 5XY1 to 5XYF being illegal, which adds 2 to the post-fetch `pc` exactly when
`x[X] = x[Y]`, so always when `X = Y`, and touches nothing else. -/
def Obligations.SeRegSkipsOnEqual : Prop :=
  ∀ x y : RegIdx,
    (∀ w : Word, decode w = .ok (.seReg x y) ↔ w &&& 0xF00F#16 = 0x5000#16 ∧ fieldX w = x ∧ fieldY w = y) ∧
    (∀ w : Word, w &&& 0xF000#16 = 0x5000#16 → fieldX w = x → fieldY w = y → w.toNat % 16 ≠ 0 →
      decode w = .error .fiveFamily) ∧
    ∀ s : State, ∃ t, exec (.seReg x y) s = .next t ∧
      t.pc = (if s.readReg x = s.readReg y then s.pc + 2#16 else s.pc) ∧ (x = y → t.pc = s.pc + 2#16) ∧ SameButPc s t

/-- R170: the words 6XNN are `LD Vx, byte`, which sets `x[X]` to `NN`, any register, and touches nothing else. -/
def Obligations.LdImmLoadsItsByte : Prop :=
  ∀ (x : RegIdx) (nn : Byte),
    (∀ w : Word, decode w = .ok (.ldImm x nn) ↔ w &&& 0xF000#16 = 0x6000#16 ∧ fieldX w = x ∧ fieldNN w = nn) ∧
    ∀ s : State, ∃ t, exec (.ldImm x nn) s = .next t ∧ t.readReg x = nn ∧
      SameRegsExcept [x] s t ∧ t.pc = s.pc ∧ SameButRegsAndPc s t

/-- R171: the words 7XNN are `ADD Vx, byte`, which adds `NN` to `x[X]` modulo 256, sets no flag (`x[15]` changes only when
`X = 15`) and touches nothing else. -/
def Obligations.AddImmAddsModulo256 : Prop :=
  ∀ (x : RegIdx) (nn : Byte),
    (∀ w : Word, decode w = .ok (.addImm x nn) ↔ w &&& 0xF000#16 = 0x7000#16 ∧ fieldX w = x ∧ fieldNN w = nn) ∧
    ∀ s : State, ∃ t, exec (.addImm x nn) s = .next t ∧
      (t.readReg x).toNat = ((s.readReg x).toNat + nn.toNat) % 256 ∧
      SameRegsExcept [x] s t ∧ t.pc = s.pc ∧ SameButRegsAndPc s t

/-- R181: the words 8XY0 are `LD Vx, Vy`, which sets `x[X]` to the old `x[Y]` and touches nothing else. -/
def Obligations.LdRegCopies : Prop :=
  ∀ x y : RegIdx,
    (∀ w : Word, decode w = .ok (.ldReg x y) ↔ w &&& 0xF00F#16 = 0x8000#16 ∧ fieldX w = x ∧ fieldY w = y) ∧
    ∀ s : State, ∃ t, exec (.ldReg x y) s = .next t ∧ t.readReg x = s.readReg y ∧
      SameRegsExcept [x] s t ∧ t.pc = s.pc ∧ SameButRegsAndPc s t

/-- R182 (decision D2 and conflict C4: the result is written back; decision D8: no flag): the words 8XY1 are `OR Vx, Vy`, which
sets each bit of `x[X]` to the OR of the old bits and touches nothing else. -/
def Obligations.OrWritesTheBitwiseOr : Prop :=
  ∀ x y : RegIdx,
    (∀ w : Word, decode w = .ok (.orReg x y) ↔ w &&& 0xF00F#16 = 0x8001#16 ∧ fieldX w = x ∧ fieldY w = y) ∧
    ∀ s : State, ∃ t, exec (.orReg x y) s = .next t ∧
      (∀ b : Nat, (t.readReg x).getLsbD b = ((s.readReg x).getLsbD b || (s.readReg y).getLsbD b)) ∧
      SameRegsExcept [x] s t ∧ t.pc = s.pc ∧ SameButRegsAndPc s t

/-- R183 (decision D8: no flag): the words 8XY2 are `AND Vx, Vy`, which sets each bit of `x[X]` to the AND of the old bits and
touches nothing else. -/
def Obligations.AndWritesTheBitwiseAnd : Prop :=
  ∀ x y : RegIdx,
    (∀ w : Word, decode w = .ok (.andReg x y) ↔ w &&& 0xF00F#16 = 0x8002#16 ∧ fieldX w = x ∧ fieldY w = y) ∧
    ∀ s : State, ∃ t, exec (.andReg x y) s = .next t ∧
      (∀ b : Nat, (t.readReg x).getLsbD b = ((s.readReg x).getLsbD b && (s.readReg y).getLsbD b)) ∧
      SameRegsExcept [x] s t ∧ t.pc = s.pc ∧ SameButRegsAndPc s t

/-- R184 (decision D8: no flag): the words 8XY3 are `XOR Vx, Vy`, which sets each bit of `x[X]` to the exclusive OR of the old
bits, so to 0 when `X = Y`, and touches nothing else. -/
def Obligations.XorWritesTheBitwiseXor : Prop :=
  ∀ x y : RegIdx,
    (∀ w : Word, decode w = .ok (.xorReg x y) ↔ w &&& 0xF00F#16 = 0x8003#16 ∧ fieldX w = x ∧ fieldY w = y) ∧
    ∀ s : State, ∃ t, exec (.xorReg x y) s = .next t ∧
      (∀ b : Nat, (t.readReg x).getLsbD b = ((s.readReg x).getLsbD b ^^ (s.readReg y).getLsbD b)) ∧
      (x = y → t.readReg x = 0#8) ∧ SameRegsExcept [x] s t ∧ t.pc = s.pc ∧ SameButRegsAndPc s t

/-- R185, R180 (decision D3 and conflict C5: with `X = 15` the carry remains): the words 8XY4 are `ADD Vx, Vy`, which sets `x[15]`
to 1 when the sum of the old operands exceeds 255 and to 0 otherwise, and `x[X]`, when `X` is not 15, to the sum modulo 256;
it touches nothing else. -/
def Obligations.AddRegAddsAndSetsTheCarry : Prop :=
  ∀ x y : RegIdx,
    (∀ w : Word, decode w = .ok (.addReg x y) ↔ w &&& 0xF00F#16 = 0x8004#16 ∧ fieldX w = x ∧ fieldY w = y) ∧
    ∀ s : State, ∃ t, exec (.addReg x y) s = .next t ∧
      t.readReg 15 = (if 255 < (s.readReg x).toNat + (s.readReg y).toNat then 1#8 else 0#8) ∧
      (x ≠ 15 → (t.readReg x).toNat = ((s.readReg x).toNat + (s.readReg y).toNat) % 256) ∧
      SameRegsExcept [x, 15] s t ∧ t.pc = s.pc ∧ SameButRegsAndPc s t

/-! ### The invariant -/

/-- R38 at reset: the invariant holds in the reset state. -/
def Obligations.InvariantHoldsAtReset : Prop := State.reset.Inv

/-- R38, R33: every tick keeps the invariant: `pc <= 0x1002`, live stack entries at most 0x1000, `i_reg = 0`, `halted` exactly
with a cause, and RAM in its canonical form (the model's, log 3). -/
def Obligations.EveryStepKeepsTheInvariant : Prop :=
  ∀ s t : State, s.Inv → step s = .next t → t.Inv

/-- R38: so does every sequence of transactions, whatever the host loads into RAM, and every such sequence answers. -/
def Obligations.EveryTransactionKeepsTheInvariant : Prop :=
  ∀ (ts : List Transaction) (s : State), s.Inv → ∃ t, transactAll ts s = .next t ∧ t.Inv

/-! ### Timers and host transactions -/

/-- R246, R247: a timer tick lowers each timer that is above 0 by 1 and leaves the other at 0, touches nothing else, cannot fault, and
emits `tone_end` exactly when it finds `st = 1`. -/
def Obligations.TimerTickCountsDown : Prop :=
  ∀ s : State, ∃ t, transact .tickTimers s = .next t ∧
    t.dt.toNat = s.dt.toNat - 1 ∧ t.st.toNat = s.st.toNat - 1 ∧
    (toneEnd .tickTimers s = true ↔ s.st.toNat = 1) ∧ SameButTimers s t

/-- R248, R249: of `n` timer ticks with nothing between, the one that emits `tone_end` is exactly the `st`-th, and both timers end
at their values less `n`, not below 0. -/
def Obligations.ToneEndsExactlyOnce : Prop :=
  ∀ (n : Nat) (s : State),
    toneEnds (List.replicate n .tickTimers) s = (List.range n).map (fun j => decide (s.st.toNat = j + 1)) ∧
    ∃ t, transactAll (List.replicate n .tickTimers) s = .next t ∧
      t.st.toNat = s.st.toNat - n ∧ t.dt.toNat = s.dt.toNat - n

/-- R250, R251 (decision D13): `sound_active` is `st != 0`; among timer ticks it falls in exactly those that emit `tone_end`, and no
other transaction emits it, though a reset lets `sound_active` fall too. -/
def Obligations.SoundFallsWithToneEnd : Prop :=
  (∀ s : State, ((outputs s).soundActive = true ↔ s.st.toNat ≠ 0) ∧
    ∃ t, transact .tickTimers s = .next t ∧
      (toneEnd .tickTimers s = true ↔ (outputs s).soundActive = true ∧ (outputs t).soundActive = false)) ∧
  ∀ (r : Transaction) (s : State), r ≠ .tickTimers → toneEnd r s = false

/-- R253: a tick and a timer tick commute, in the state they leave and in the `tone_end` event. -/
def Obligations.TickAndTimerTickCommute : Prop :=
  ∀ s : State, transactAll [.tick, .tickTimers] s = transactAll [.tickTimers, .tick] s ∧
    (toneEnds [.tick, .tickTimers] s).any id = (toneEnds [.tickTimers, .tick] s).any id

/-- R204, R55 (decisions D15, D24): a RAM write, halted or not, puts its byte at its address, changes no other byte and nothing
else, and keeps RAM canonical. Premise: RAM is canonical (log 3), which every transaction keeps. -/
def Obligations.RamWriteSetsOneByte : Prop :=
  ∀ (s : State) (a : Addr12) (v : Byte), s.ram.wf = true → ∃ t, transact (.ramWrite a v) s = .next t ∧
    (∀ b : Nat, t.ram.read b = if b = a.toNat then v else s.ram.read b) ∧ t.ram.wf = true ∧
    t.pc = s.pc ∧ SameRegs s t ∧ t.iReg = s.iReg ∧ SameStack s t ∧ t.dt = s.dt ∧ t.st = s.st ∧
    SameFb s t ∧ SameKeys s t ∧ SameStatus s t

/-- R205: a key write sets the one key to the bit and changes nothing else. -/
def Obligations.KeyWriteSetsOneKey : Prop :=
  ∀ (s : State) (k : Fin 16) (b : Bool), ∃ t, transact (.keyWrite k b) s = .next t ∧
    (∀ j : Fin 16, t.keyRead j = if j = k then b else s.keyRead j) ∧
    t.pc = s.pc ∧ SameRegs s t ∧ t.iReg = s.iReg ∧ SameStack s t ∧ t.dt = s.dt ∧ t.st = s.st ∧
    SameRam s t ∧ SameFb s t ∧ SameStatus s t

/-- R206: a state read changes nothing, and the host can read every element: states with canonical RAM (log 3) whose every
element reads the same are the same state. -/
def Obligations.StateReadsShowTheWholeState : Prop :=
  (∀ (s : State) (e : Element), transact (.stateRead e) s = .next s) ∧
  ∀ s t : State, s.ram.wf = true → t.ram.wf = true →
    (∀ e : Element, readOut (.stateRead e) s = readOut (.stateRead e) t) → s = t

/-- R209 (decision D14): of simultaneous requests, reset drops the others; otherwise the RAM write comes first, then the timer tick
where it is requested, then the tick, which fetches the byte just written in place of either of its two bytes: it runs the
instruction of the word then at `pc`, or raises `IllegalOpcode` where there is none. Premise: RAM is canonical (log 3). -/
def Obligations.SimultaneousRequestsAreOrdered : Prop :=
  (∀ (r : Requests) (s : State), r.rst = true → serve r s = .next State.reset) ∧
  ∀ (s : State) (a : Addr12) (v : Byte) (timer : Bool), s.halted = false → s.pc.toNat ≤ 0x0FFE → s.ram.wf = true →
    serve { rst := false, ramWrite := some (a, v), timerReq := timer, stepReq := true } s =
      match decode (wordOfBytes (if a.toNat = s.pc.toNat then v else s.ram.read s.pc.toNat)
        (if a.toNat = s.pc.toNat + 1 then v else s.ram.read (s.pc.toNat + 1))) with
      | .ok i => exec i (if timer then (s.writeRam a v).countTimers else s.writeRam a v).advancePc
      | .error _ =>
        .next ((if timer then (s.writeRam a v).countTimers else s.writeRam a v).advancePc.raise .illegalOpcode)

/-- R238, R239, R254 (decision D4): without a reset, no sequence of transactions leaves the halted state, changes the cause or
executes an instruction. -/
def Obligations.OnlyResetLeavesTheHaltedState : Prop :=
  ∀ (ts : List Transaction) (s : State), s.halted = true → .reset ∉ ts → ∃ t, transactAll ts s = .next t ∧
    t.halted = true ∧ t.faultCause = s.faultCause ∧ t.pc = s.pc ∧ SameRegs s t ∧ SameStack s t ∧ SameFb s t ∧
    t.iReg = s.iReg

/-- R31 (decision D20): the cell of column `c` of row `r` is `fb[64*r + c]`. In every state that cell, and the host's read of it, is
bit `c` of the row `r` that the model holds (log 4), and every cell is that of exactly one pixel. -/
def Obligations.EveryCellIsOnePixel : Prop :=
  (∀ (s : State) (c : Fin 64) (r : Fin 32), s.fbRead (fbIndex c r) = s.fb[r].getLsbD c.val ∧
    readOut (.stateRead (.fb (fbIndex c r))) s = some (if s.fb[r].getLsbD c.val then 1#16 else 0#16)) ∧
  (∀ (c : Fin 64) (r : Fin 32), (fbIndex c r).val = 64 * r.val + c.val) ∧
  ∀ k : Fin 2048, ∃ (c : Fin 64) (r : Fin 32), fbIndex c r = k ∧
    ∀ (c' : Fin 64) (r' : Fin 32), fbIndex c' r' = k → c' = c ∧ r' = r
end

