-- ==== Sys2Proof/Laws/PerInstr.lean ====
section
/-! SUPPORT. The family EncodingRow: what every instruction is as syntax. Its operands fit their fields, and its word belongs
to its own row of the opcode map and to no other (spec/30_encoding.md R86, R89). -/

namespace Sys2Proof

theorem getLsbD_formatFA (op : BitVec 4) (nnn : Addr12) (i : Nat) :
    (formatFA op nnn).getLsbD i = if i < 12 then nnn.getLsbD i else op.getLsbD (i - 12) :=
  BitVec.getLsbD_append

theorem getLsbD_formatFI (op : BitVec 4) (x : RegIdx) (nn : Byte) (i : Nat) :
    (formatFI op x nn).getLsbD i =
      if i < 8 then nn.getLsbD i else if i < 12 then (regBits x).getLsbD (i - 8) else op.getLsbD (i - 12) := by
  refine BitVec.getLsbD_append.trans ?_
  rw [BitVec.getLsbD_append]
  split
  · rfl
  · simp only [show i - 8 < 4 ↔ i < 12 by omega, show i - 8 - 4 = i - 12 by omega]

theorem getLsbD_formatFR (op fn : BitVec 4) (x y : RegIdx) (i : Nat) :
    (formatFR op x y fn).getLsbD i =
      if i < 4 then fn.getLsbD i else if i < 8 then (regBits y).getLsbD (i - 4)
      else if i < 12 then (regBits x).getLsbD (i - 8) else op.getLsbD (i - 12) := by
  refine BitVec.getLsbD_append.trans ?_
  rw [BitVec.getLsbD_append, BitVec.getLsbD_append]
  simp only [Nat.reduceAdd, show i - 8 < 4 ↔ i < 12 by omega, show i - 8 - 4 = i - 12 by omega]
  split <;> split <;> simp_all <;> omega

/-- The opcode bits of format FA, under mask 0xF000. -/
theorem formatFA_opcode (op : BitVec 4) (nnn : Addr12) : formatFA op nnn &&& 0xF000#16 = formatFA op 0#12 := by
  apply BitVec.eq_of_getLsbD_eq
  intro i hi
  rw [BitVec.getLsbD_and, getLsbD_formatFA, getLsbD_formatFA]
  interval_cases i <;> simp

/-- The opcode bits of format FI, under mask 0xF000. -/
theorem formatFI_opcode (op : BitVec 4) (x : RegIdx) (nn : Byte) :
    formatFI op x nn &&& 0xF000#16 = formatFA op 0#12 := by
  apply BitVec.eq_of_getLsbD_eq
  intro i hi
  rw [BitVec.getLsbD_and, getLsbD_formatFI, getLsbD_formatFA]
  interval_cases i <;> simp

/-- The opcode bits of format FR, under mask 0xF00F. -/
theorem formatFR_opcode (op fn : BitVec 4) (x y : RegIdx) :
    formatFR op x y fn &&& 0xF00F#16 = formatFR op 0 0 fn := by
  apply BitVec.eq_of_getLsbD_eq
  intro i hi
  rw [BitVec.getLsbD_and, getLsbD_formatFR, getLsbD_formatFR]
  interval_cases i <;> simp [regBits]

/-! ### The family -/

/-- The instruction is well formed, its word is one of its row's, and its row is in the opcode map. -/
def Laws.EncodingRow.Statement (i : Instr) : Prop :=
  WellFormed i = true ∧ i.row.matches (encode i) = true ∧ i.row ∈ opcodeTable

/-- The row's half of the statement, from the masked word. -/
theorem row_matches_of_mask {r : OpcodeRow} {w : Word} (h : w &&& r.mask = r.pattern) : r.matches w = true := by
  simp only [OpcodeRow.matches, h, beq_self_eq_true]

theorem wellFormed_address (a : Addr12) : Operand.fits ⟨.nnn, a.toNat⟩ = true := decide_eq_true a.isLt

theorem wellFormed_byte (b : Byte) : Operand.fits ⟨.nn, b.toNat⟩ = true := decide_eq_true b.isLt

theorem wellFormed_x (x : RegIdx) : Operand.fits ⟨.x, x.val⟩ = true := decide_eq_true x.isLt

theorem wellFormed_y (y : RegIdx) : Operand.fits ⟨.y, y.val⟩ = true := decide_eq_true y.isLt

/-- Every instruction is well formed: its operands have their fields' own types (R89). -/
theorem wellFormed_always (i : Instr) : WellFormed i = true := by
  cases i <;>
    simp only [WellFormed, Instr.operands, List.all_nil, List.all_cons, Bool.and_self,
      wellFormed_address, wellFormed_byte, wellFormed_x, wellFormed_y]

namespace Laws.EncodingRow

theorem nop : Statement .nop := ⟨wellFormed_always _, by decide, by decide⟩
theorem cls : Statement .cls := ⟨wellFormed_always _, by decide, by decide⟩
theorem ret : Statement .ret := ⟨wellFormed_always _, by decide, by decide⟩

theorem jp (nnn : Addr12) : Statement (.jp nnn) :=
  ⟨wellFormed_always _, row_matches_of_mask (formatFA_opcode _ nnn), by simp only [Instr.row]; decide⟩

theorem call (nnn : Addr12) : Statement (.call nnn) :=
  ⟨wellFormed_always _, row_matches_of_mask (formatFA_opcode _ nnn), by simp only [Instr.row]; decide⟩

theorem seImm (x : RegIdx) (nn : Byte) : Statement (.seImm x nn) :=
  ⟨wellFormed_always _, row_matches_of_mask (formatFI_opcode _ x nn), by simp only [Instr.row]; decide⟩

theorem sneImm (x : RegIdx) (nn : Byte) : Statement (.sneImm x nn) :=
  ⟨wellFormed_always _, row_matches_of_mask (formatFI_opcode _ x nn), by simp only [Instr.row]; decide⟩

theorem seReg (x y : RegIdx) : Statement (.seReg x y) :=
  ⟨wellFormed_always _, row_matches_of_mask (formatFR_opcode _ _ x y), by simp only [Instr.row]; decide⟩

theorem ldImm (x : RegIdx) (nn : Byte) : Statement (.ldImm x nn) :=
  ⟨wellFormed_always _, row_matches_of_mask (formatFI_opcode _ x nn), by simp only [Instr.row]; decide⟩

theorem addImm (x : RegIdx) (nn : Byte) : Statement (.addImm x nn) :=
  ⟨wellFormed_always _, row_matches_of_mask (formatFI_opcode _ x nn), by simp only [Instr.row]; decide⟩

theorem ldReg (x y : RegIdx) : Statement (.ldReg x y) :=
  ⟨wellFormed_always _, row_matches_of_mask (formatFR_opcode _ _ x y), by simp only [Instr.row]; decide⟩

theorem orReg (x y : RegIdx) : Statement (.orReg x y) :=
  ⟨wellFormed_always _, row_matches_of_mask (formatFR_opcode _ _ x y), by simp only [Instr.row]; decide⟩

theorem andReg (x y : RegIdx) : Statement (.andReg x y) :=
  ⟨wellFormed_always _, row_matches_of_mask (formatFR_opcode _ _ x y), by simp only [Instr.row]; decide⟩

theorem xorReg (x y : RegIdx) : Statement (.xorReg x y) :=
  ⟨wellFormed_always _, row_matches_of_mask (formatFR_opcode _ _ x y), by simp only [Instr.row]; decide⟩

theorem addReg (x y : RegIdx) : Statement (.addReg x y) :=
  ⟨wellFormed_always _, row_matches_of_mask (formatFR_opcode _ _ x y), by simp only [Instr.row]; decide⟩

end Laws.EncodingRow

end Sys2Proof
end

