-- ==== Sys2Proof/Laws/Decode.lean ====
section
/-! SUPPORT. What the decoder can answer, said once, and the fields of an encoded word, so that no proof unfolds the chain of
tests in `decode`. -/

namespace Sys2Proof

/-- What `decode` answers for a word, with what the word is in each case (spec/30_encoding.md R83, R90). -/
inductive Decodes (w : Word) : Except IllegalClass Instr → Prop
  | nop (h : w = 0x0000#16) : Decodes w (.ok .nop)
  | cls (h : w = 0x00E0#16) : Decodes w (.ok .cls)
  | ret (h : w = 0x00EE#16) : Decodes w (.ok .ret)
  | zero (h : n3 w = 0x0#4) (h1 : w ≠ 0x0000#16) (h2 : w ≠ 0x00E0#16) (h3 : w ≠ 0x00EE#16) :
      Decodes w (.error .zeroFamily)
  | jp (h : n3 w = 0x1#4) : Decodes w (.ok (.jp (fieldNNN w)))
  | call (h : n3 w = 0x2#4) : Decodes w (.ok (.call (fieldNNN w)))
  | seImm (h : n3 w = 0x3#4) : Decodes w (.ok (.seImm (fieldX w) (fieldNN w)))
  | sneImm (h : n3 w = 0x4#4) : Decodes w (.ok (.sneImm (fieldX w) (fieldNN w)))
  | seReg (h : n3 w = 0x5#4) (hf : n0 w = 0x0#4) : Decodes w (.ok (.seReg (fieldX w) (fieldY w)))
  | five (h : n3 w = 0x5#4) (hf : n0 w ≠ 0x0#4) : Decodes w (.error .fiveFamily)
  | ldImm (h : n3 w = 0x6#4) : Decodes w (.ok (.ldImm (fieldX w) (fieldNN w)))
  | addImm (h : n3 w = 0x7#4) : Decodes w (.ok (.addImm (fieldX w) (fieldNN w)))
  | ldReg (h : n3 w = 0x8#4) (hf : n0 w = 0x0#4) : Decodes w (.ok (.ldReg (fieldX w) (fieldY w)))
  | orReg (h : n3 w = 0x8#4) (hf : n0 w = 0x1#4) : Decodes w (.ok (.orReg (fieldX w) (fieldY w)))
  | andReg (h : n3 w = 0x8#4) (hf : n0 w = 0x2#4) : Decodes w (.ok (.andReg (fieldX w) (fieldY w)))
  | xorReg (h : n3 w = 0x8#4) (hf : n0 w = 0x3#4) : Decodes w (.ok (.xorReg (fieldX w) (fieldY w)))
  | addReg (h : n3 w = 0x8#4) (hf : n0 w = 0x4#4) : Decodes w (.ok (.addReg (fieldX w) (fieldY w)))
  | eight (h : n3 w = 0x8#4) (hf : 5 ≤ (n0 w).toNat) : Decodes w (.error .eightFamily)
  | high (h : 9 ≤ (n3 w).toNat) : Decodes w (.error .highFamily)

theorem nibble_above_four {n : BitVec 4} (h0 : n ≠ 0x0#4) (h1 : n ≠ 0x1#4) (h2 : n ≠ 0x2#4) (h3 : n ≠ 0x3#4)
    (h4 : n ≠ 0x4#4) : 5 ≤ n.toNat := by
  bv_omega

theorem nibble_above_eight {n : BitVec 4} (h0 : n ≠ 0x0#4) (h1 : n ≠ 0x1#4) (h2 : n ≠ 0x2#4) (h3 : n ≠ 0x3#4)
    (h4 : n ≠ 0x4#4) (h5 : n ≠ 0x5#4) (h6 : n ≠ 0x6#4) (h7 : n ≠ 0x7#4) (h8 : n ≠ 0x8#4) : 9 ≤ n.toNat := by
  bv_omega

/-- `decode` answers as `Decodes` says. -/
theorem decode_decodes (w : Word) : Decodes w (decode w) := by
  unfold decode
  by_cases a : w = 0x0000#16
  · rw [if_pos a]; exact .nop a
  rw [if_neg a]
  by_cases b : w = 0x00E0#16
  · rw [if_pos b]; exact .cls b
  rw [if_neg b]
  by_cases c : w = 0x00EE#16
  · rw [if_pos c]; exact .ret c
  rw [if_neg c]
  by_cases h0 : n3 w = 0x0#4
  · rw [if_pos h0]; exact .zero h0 a b c
  rw [if_neg h0]
  by_cases h1 : n3 w = 0x1#4
  · rw [if_pos h1]; exact .jp h1
  rw [if_neg h1]
  by_cases h2 : n3 w = 0x2#4
  · rw [if_pos h2]; exact .call h2
  rw [if_neg h2]
  by_cases h3 : n3 w = 0x3#4
  · rw [if_pos h3]; exact .seImm h3
  rw [if_neg h3]
  by_cases h4 : n3 w = 0x4#4
  · rw [if_pos h4]; exact .sneImm h4
  rw [if_neg h4]
  by_cases h5 : n3 w = 0x5#4
  · rw [if_pos h5]
    by_cases hf : n0 w = 0x0#4
    · rw [if_pos hf]; exact .seReg h5 hf
    · rw [if_neg hf]; exact .five h5 hf
  rw [if_neg h5]
  by_cases h6 : n3 w = 0x6#4
  · rw [if_pos h6]; exact .ldImm h6
  rw [if_neg h6]
  by_cases h7 : n3 w = 0x7#4
  · rw [if_pos h7]; exact .addImm h7
  rw [if_neg h7]
  by_cases h8 : n3 w = 0x8#4
  · rw [if_pos h8]
    by_cases f0 : n0 w = 0x0#4
    · rw [if_pos f0]; exact .ldReg h8 f0
    rw [if_neg f0]
    by_cases f1 : n0 w = 0x1#4
    · rw [if_pos f1]; exact .orReg h8 f1
    rw [if_neg f1]
    by_cases f2 : n0 w = 0x2#4
    · rw [if_pos f2]; exact .andReg h8 f2
    rw [if_neg f2]
    by_cases f3 : n0 w = 0x3#4
    · rw [if_pos f3]; exact .xorReg h8 f3
    rw [if_neg f3]
    by_cases f4 : n0 w = 0x4#4
    · rw [if_pos f4]; exact .addReg h8 f4
    rw [if_neg f4]
    exact .eight h8 (nibble_above_four f0 f1 f2 f3 f4)
  rw [if_neg h8]
  exact .high (nibble_above_eight h0 h1 h2 h3 h4 h5 h6 h7 h8)

/-- `decode` answers one thing: what `Decodes` says of a word is what `decode` answers for it. -/
theorem decode_eq_of_decodes {w : Word} {r : Except IllegalClass Instr} (h : Decodes w r) : decode w = r := by
  have ne : n3 w ≠ 0x0#4 → w ≠ 0x0000#16 ∧ w ≠ 0x00E0#16 ∧ w ≠ 0x00EE#16 := fun hn =>
    ⟨fun e => hn (e ▸ rfl), fun e => hn (e ▸ rfl), fun e => hn (e ▸ rfl)⟩
  cases h with
  | nop h => subst h; rfl
  | cls h => subst h; rfl
  | ret h => subst h; rfl
  | zero h h1 h2 h3 => simp only [decode, h1, h2, h3, h, if_false, if_true]
  | eight h hf =>
    have hz := ne (by rw [h]; decide)
    have : ∀ c : BitVec 4, c.toNat < 5 → n0 w ≠ c := fun c hc e => by rw [e] at hf; omega
    simp only [decode, hz, h, this 0x0#4 (by decide), this 0x1#4 (by decide), this 0x2#4 (by decide),
      this 0x3#4 (by decide), this 0x4#4 (by decide), if_false, if_true, BitVec.reduceEq]
  | high h =>
    have n : ∀ c : BitVec 4, c.toNat < 9 → n3 w ≠ c := fun c hc e => by rw [e] at h; omega
    have hz := ne (n 0x0#4 (by decide))
    simp only [decode, hz, n 0x0#4 (by decide), n 0x1#4 (by decide), n 0x2#4 (by decide), n 0x3#4 (by decide),
      n 0x4#4 (by decide), n 0x5#4 (by decide), n 0x6#4 (by decide), n 0x7#4 (by decide), n 0x8#4 (by decide), if_false]
  | seReg h hf | five h hf | ldReg h hf | orReg h hf | andReg h hf | xorReg h hf | addReg h hf =>
    have hz := ne (by rw [h]; decide)
    simp only [decode, hz, h, hf, if_false, if_true, BitVec.reduceEq]
  | jp h | call h | seImm h | sneImm h | ldImm h | addImm h =>
    have hz := ne (by rw [h]; decide)
    simp only [decode, hz, h, if_false, if_true, BitVec.reduceEq]

end Sys2Proof
end

