-- ==== Sys2Proof/Laws/Memory.lean ====
section
/-! SUPPORT. RAM: a read after a write, and the canonical form (log 3). -/

namespace Sys2Proof.Machine

theorem memory_read_cell_append (a : Nat) (v : Byte) (rest : Memory) (b : Nat)
    (h : b = a → v = Memory.unlisted a → rest.read a = Memory.unlisted a) :
    (Memory.cell a v ++ rest).read b = if b = a then v else rest.read b := by
  unfold Memory.cell
  by_cases hv : v = Memory.unlisted a
  · by_cases hb : b = a
    · subst hb; simp [hv, h rfl hv]
    · simp [hv, hb]
  · by_cases hb : b = a
    · subst hb; simp [hv, Memory.read]
    · simp [hv, hb, Memory.read, Ne.symm hb]

/-- Below its first address a canonical memory reads as the reset contents. -/
theorem memory_read_below (m : Memory) (lo a : Nat) (hm : m.wfFrom lo = true) (ha : a < lo) :
    m.read a = Memory.unlisted a := by
  induction m generalizing lo with
  | nil => rfl
  | cons c rest ih =>
    obtain ⟨k, v⟩ := c
    simp only [Memory.wfFrom, Bool.and_eq_true, decide_eq_true_eq] at hm
    rw [Memory.read, if_neg (by omega)]
    exact ih (k + 1) hm.2 (by omega)

theorem memory_wfFrom_mono (m : Memory) (lo lo' : Nat) (hm : m.wfFrom lo = true) (h : lo' ≤ lo) :
    m.wfFrom lo' = true := by
  cases m with
  | nil => rfl
  | cons c rest =>
    obtain ⟨k, v⟩ := c
    simp only [Memory.wfFrom, Bool.and_eq_true, decide_eq_true_eq] at hm ⊢
    exact ⟨⟨⟨by omega, hm.1.1.2⟩, hm.1.2⟩, hm.2⟩

/-- What a write does to every read, in a canonical memory. -/
theorem memory_read_write (m : Memory) (lo a b : Nat) (v : Byte) (hm : m.wfFrom lo = true) :
    (m.write a v).read b = if b = a then v else m.read b := by
  induction m generalizing lo with
  | nil =>
    have := memory_read_cell_append a v [] b (fun _ _ => rfl)
    simpa [Memory.write] using this
  | cons c rest ih =>
    obtain ⟨k, u⟩ := c
    have hm' := hm
    simp only [Memory.wfFrom, Bool.and_eq_true, decide_eq_true_eq] at hm
    rw [Memory.write]
    split
    · next h =>
      refine memory_read_cell_append a v _ b fun _ _ => ?_
      rw [Memory.read, if_neg (by omega)]
      exact memory_read_below rest (k + 1) a hm.2 (by omega)
    · split
      · next h =>
        subst h
        rw [memory_read_cell_append a v rest b fun _ _ => memory_read_below rest (a + 1) a hm.2 (by omega)]
        by_cases hb : b = a
        · simp [hb]
        · simp [hb, Memory.read, Ne.symm hb]
      · next h =>
        rw [Memory.read, ih (k + 1) hm.2, Memory.read]
        by_cases hk : k = b
        · subst hk; simp [Ne.symm h]
        · simp [hk]

theorem memory_wfFrom_cell_append (a lo : Nat) (v : Byte) (rest : Memory) (hlo : lo ≤ a) (ha : a < 4096)
    (hr : rest.wfFrom (a + 1) = true) : (Memory.cell a v ++ rest).wfFrom lo = true := by
  unfold Memory.cell
  by_cases hv : v = Memory.unlisted a
  · simpa [hv] using memory_wfFrom_mono rest (a + 1) lo hr (by omega)
  · simp [hv, Memory.wfFrom, hlo, ha, hr]

theorem memory_wfFrom_write (m : Memory) (lo a : Nat) (v : Byte) (hm : m.wfFrom lo = true) (hlo : lo ≤ a)
    (ha : a < 4096) : (m.write a v).wfFrom lo = true := by
  induction m generalizing lo with
  | nil => simpa [Memory.write] using memory_wfFrom_cell_append a lo v [] hlo ha rfl
  | cons c rest ih =>
    obtain ⟨k, u⟩ := c
    simp only [Memory.wfFrom, Bool.and_eq_true, decide_eq_true_eq] at hm
    rw [Memory.write]
    split
    · refine memory_wfFrom_cell_append a lo v _ hlo ha ?_
      simp only [Memory.wfFrom, Bool.and_eq_true, decide_eq_true_eq]
      exact ⟨⟨⟨by omega, hm.1.1.2⟩, hm.1.2⟩, hm.2⟩
    · split
      · next h => subst h; exact memory_wfFrom_cell_append a lo v rest hlo ha hm.2
      · simp only [Memory.wfFrom, Bool.and_eq_true, decide_eq_true_eq]
        exact ⟨⟨⟨hm.1.1.1, hm.1.1.2⟩, hm.1.2⟩, ih (k + 1) hm.2 (by omega)⟩

/-- Every memory operation keeps the canonical form: there is one, the write. -/
theorem memory_wf_write (m : Memory) (a : Nat) (v : Byte) (hm : m.wf = true) (ha : a < 4096) :
    (m.write a v).wf = true :=
  memory_wfFrom_write m 0 a v hm (Nat.zero_le a) ha

theorem writeRam_wf (s : State) (a : Addr12) (v : Byte) (hm : s.ram.wf = true) : (s.writeRam a v).ram.wf = true :=
  memory_wf_write s.ram a.toNat v hm a.isLt

theorem storeWord_wf (s : State) (a : Nat) (w : Word) (hm : s.ram.wf = true) : (s.storeWord a w).ram.wf = true :=
  writeRam_wf _ _ _ (writeRam_wf _ _ _ hm)

theorem reset_ram_wf : State.reset.ram.wf = true := rfl

/-- A read after a RAM write (spec/20_memory.md R55). -/
theorem writeRam_read (s : State) (a : Addr12) (v : Byte) (b : Nat) (hm : s.ram.wf = true) :
    (s.writeRam a v).ram.read b = if b = a.toNat then v else s.ram.read b :=
  memory_read_write s.ram 0 a.toNat b v hm

end Sys2Proof.Machine
end

