-- ==== Sys2Proof/Laws/State.lean ====
section
/-! SUPPORT. What each field of the state is after each named update, true by definition, so that no proof unfolds an
update. -/

namespace Sys2Proof.Machine

variable (s : State)

/-! ### `State.setPc` -/

@[simp] theorem setPc_pc (v : Addr) : (s.setPc v).pc = v := rfl
@[simp] theorem setPc_x (v : Addr) : (s.setPc v).x = s.x := rfl
@[simp] theorem setPc_iReg (v : Addr) : (s.setPc v).iReg = s.iReg := rfl
@[simp] theorem setPc_stack (v : Addr) : (s.setPc v).stack = s.stack := rfl
@[simp] theorem setPc_sp (v : Addr) : (s.setPc v).sp = s.sp := rfl
@[simp] theorem setPc_dt (v : Addr) : (s.setPc v).dt = s.dt := rfl
@[simp] theorem setPc_st (v : Addr) : (s.setPc v).st = s.st := rfl
@[simp] theorem setPc_ram (v : Addr) : (s.setPc v).ram = s.ram := rfl
@[simp] theorem setPc_fb (v : Addr) : (s.setPc v).fb = s.fb := rfl
@[simp] theorem setPc_keys (v : Addr) : (s.setPc v).keys = s.keys := rfl
@[simp] theorem setPc_halted (v : Addr) : (s.setPc v).halted = s.halted := rfl
@[simp] theorem setPc_faultCause (v : Addr) : (s.setPc v).faultCause = s.faultCause := rfl

/-! ### `State.advancePc` -/

@[simp] theorem advancePc_pc : (s.advancePc).pc = s.pc + 2#16 := rfl
@[simp] theorem advancePc_x : (s.advancePc).x = s.x := rfl
@[simp] theorem advancePc_iReg : (s.advancePc).iReg = s.iReg := rfl
@[simp] theorem advancePc_stack : (s.advancePc).stack = s.stack := rfl
@[simp] theorem advancePc_sp : (s.advancePc).sp = s.sp := rfl
@[simp] theorem advancePc_dt : (s.advancePc).dt = s.dt := rfl
@[simp] theorem advancePc_st : (s.advancePc).st = s.st := rfl
@[simp] theorem advancePc_ram : (s.advancePc).ram = s.ram := rfl
@[simp] theorem advancePc_fb : (s.advancePc).fb = s.fb := rfl
@[simp] theorem advancePc_keys : (s.advancePc).keys = s.keys := rfl
@[simp] theorem advancePc_halted : (s.advancePc).halted = s.halted := rfl
@[simp] theorem advancePc_faultCause : (s.advancePc).faultCause = s.faultCause := rfl

/-! ### `State.writeReg` -/

@[simp] theorem writeReg_pc (i : RegIdx) (v : Byte) : (s.writeReg i v).pc = s.pc := rfl
@[simp] theorem writeReg_x (i : RegIdx) (v : Byte) : (s.writeReg i v).x = s.x.set i v := rfl
@[simp] theorem writeReg_iReg (i : RegIdx) (v : Byte) : (s.writeReg i v).iReg = s.iReg := rfl
@[simp] theorem writeReg_stack (i : RegIdx) (v : Byte) : (s.writeReg i v).stack = s.stack := rfl
@[simp] theorem writeReg_sp (i : RegIdx) (v : Byte) : (s.writeReg i v).sp = s.sp := rfl
@[simp] theorem writeReg_dt (i : RegIdx) (v : Byte) : (s.writeReg i v).dt = s.dt := rfl
@[simp] theorem writeReg_st (i : RegIdx) (v : Byte) : (s.writeReg i v).st = s.st := rfl
@[simp] theorem writeReg_ram (i : RegIdx) (v : Byte) : (s.writeReg i v).ram = s.ram := rfl
@[simp] theorem writeReg_fb (i : RegIdx) (v : Byte) : (s.writeReg i v).fb = s.fb := rfl
@[simp] theorem writeReg_keys (i : RegIdx) (v : Byte) : (s.writeReg i v).keys = s.keys := rfl
@[simp] theorem writeReg_halted (i : RegIdx) (v : Byte) : (s.writeReg i v).halted = s.halted := rfl
@[simp] theorem writeReg_faultCause (i : RegIdx) (v : Byte) : (s.writeReg i v).faultCause = s.faultCause := rfl

/-! ### `State.raise` -/

@[simp] theorem raise_pc (f : Fault) : (s.raise f).pc = s.pc := rfl
@[simp] theorem raise_x (f : Fault) : (s.raise f).x = s.x := rfl
@[simp] theorem raise_iReg (f : Fault) : (s.raise f).iReg = s.iReg := rfl
@[simp] theorem raise_stack (f : Fault) : (s.raise f).stack = s.stack := rfl
@[simp] theorem raise_sp (f : Fault) : (s.raise f).sp = s.sp := rfl
@[simp] theorem raise_dt (f : Fault) : (s.raise f).dt = s.dt := rfl
@[simp] theorem raise_st (f : Fault) : (s.raise f).st = s.st := rfl
@[simp] theorem raise_ram (f : Fault) : (s.raise f).ram = s.ram := rfl
@[simp] theorem raise_fb (f : Fault) : (s.raise f).fb = s.fb := rfl
@[simp] theorem raise_keys (f : Fault) : (s.raise f).keys = s.keys := rfl
@[simp] theorem raise_halted (f : Fault) : (s.raise f).halted = true := rfl
@[simp] theorem raise_faultCause (f : Fault) : (s.raise f).faultCause = some f := rfl

/-! ### `State.clearFb` -/

@[simp] theorem clearFb_pc : (s.clearFb).pc = s.pc := rfl
@[simp] theorem clearFb_x : (s.clearFb).x = s.x := rfl
@[simp] theorem clearFb_iReg : (s.clearFb).iReg = s.iReg := rfl
@[simp] theorem clearFb_stack : (s.clearFb).stack = s.stack := rfl
@[simp] theorem clearFb_sp : (s.clearFb).sp = s.sp := rfl
@[simp] theorem clearFb_dt : (s.clearFb).dt = s.dt := rfl
@[simp] theorem clearFb_st : (s.clearFb).st = s.st := rfl
@[simp] theorem clearFb_ram : (s.clearFb).ram = s.ram := rfl
@[simp] theorem clearFb_fb : (s.clearFb).fb = Vector.replicate 32 0#64 := rfl
@[simp] theorem clearFb_keys : (s.clearFb).keys = s.keys := rfl
@[simp] theorem clearFb_halted : (s.clearFb).halted = s.halted := rfl
@[simp] theorem clearFb_faultCause : (s.clearFb).faultCause = s.faultCause := rfl

/-! ### `State.countTimers` -/

@[simp] theorem countTimers_pc : (s.countTimers).pc = s.pc := rfl
@[simp] theorem countTimers_x : (s.countTimers).x = s.x := rfl
@[simp] theorem countTimers_iReg : (s.countTimers).iReg = s.iReg := rfl
@[simp] theorem countTimers_stack : (s.countTimers).stack = s.stack := rfl
@[simp] theorem countTimers_sp : (s.countTimers).sp = s.sp := rfl
@[simp] theorem countTimers_dt : (s.countTimers).dt = countDown s.dt := rfl
@[simp] theorem countTimers_st : (s.countTimers).st = countDown s.st := rfl
@[simp] theorem countTimers_ram : (s.countTimers).ram = s.ram := rfl
@[simp] theorem countTimers_fb : (s.countTimers).fb = s.fb := rfl
@[simp] theorem countTimers_keys : (s.countTimers).keys = s.keys := rfl
@[simp] theorem countTimers_halted : (s.countTimers).halted = s.halted := rfl
@[simp] theorem countTimers_faultCause : (s.countTimers).faultCause = s.faultCause := rfl

/-! ### `State.writeRam` -/

@[simp] theorem writeRam_pc (a : Addr12) (v : Byte) : (s.writeRam a v).pc = s.pc := rfl
@[simp] theorem writeRam_x (a : Addr12) (v : Byte) : (s.writeRam a v).x = s.x := rfl
@[simp] theorem writeRam_iReg (a : Addr12) (v : Byte) : (s.writeRam a v).iReg = s.iReg := rfl
@[simp] theorem writeRam_stack (a : Addr12) (v : Byte) : (s.writeRam a v).stack = s.stack := rfl
@[simp] theorem writeRam_sp (a : Addr12) (v : Byte) : (s.writeRam a v).sp = s.sp := rfl
@[simp] theorem writeRam_dt (a : Addr12) (v : Byte) : (s.writeRam a v).dt = s.dt := rfl
@[simp] theorem writeRam_st (a : Addr12) (v : Byte) : (s.writeRam a v).st = s.st := rfl
@[simp] theorem writeRam_ram (a : Addr12) (v : Byte) : (s.writeRam a v).ram = s.ram.write a.toNat v := rfl
@[simp] theorem writeRam_fb (a : Addr12) (v : Byte) : (s.writeRam a v).fb = s.fb := rfl
@[simp] theorem writeRam_keys (a : Addr12) (v : Byte) : (s.writeRam a v).keys = s.keys := rfl
@[simp] theorem writeRam_halted (a : Addr12) (v : Byte) : (s.writeRam a v).halted = s.halted := rfl
@[simp] theorem writeRam_faultCause (a : Addr12) (v : Byte) : (s.writeRam a v).faultCause = s.faultCause := rfl

/-! ### `State.writeKey` -/

@[simp] theorem writeKey_pc (k : Fin 16) (b : Bool) : (s.writeKey k b).pc = s.pc := rfl
@[simp] theorem writeKey_x (k : Fin 16) (b : Bool) : (s.writeKey k b).x = s.x := rfl
@[simp] theorem writeKey_iReg (k : Fin 16) (b : Bool) : (s.writeKey k b).iReg = s.iReg := rfl
@[simp] theorem writeKey_stack (k : Fin 16) (b : Bool) : (s.writeKey k b).stack = s.stack := rfl
@[simp] theorem writeKey_sp (k : Fin 16) (b : Bool) : (s.writeKey k b).sp = s.sp := rfl
@[simp] theorem writeKey_dt (k : Fin 16) (b : Bool) : (s.writeKey k b).dt = s.dt := rfl
@[simp] theorem writeKey_st (k : Fin 16) (b : Bool) : (s.writeKey k b).st = s.st := rfl
@[simp] theorem writeKey_ram (k : Fin 16) (b : Bool) : (s.writeKey k b).ram = s.ram := rfl
@[simp] theorem writeKey_fb (k : Fin 16) (b : Bool) : (s.writeKey k b).fb = s.fb := rfl
@[simp] theorem writeKey_keys (k : Fin 16) (b : Bool) : (s.writeKey k b).keys = if b then s.keys ||| BitVec.twoPow 16 k.val else s.keys &&& ~~~(BitVec.twoPow 16 k.val) := rfl
@[simp] theorem writeKey_halted (k : Fin 16) (b : Bool) : (s.writeKey k b).halted = s.halted := rfl
@[simp] theorem writeKey_faultCause (k : Fin 16) (b : Bool) : (s.writeKey k b).faultCause = s.faultCause := rfl

/-! ### `State.followKeys` -/

@[simp] theorem followKeys_pc (v : BitVec 16) : (s.followKeys v).pc = s.pc := rfl
@[simp] theorem followKeys_x (v : BitVec 16) : (s.followKeys v).x = s.x := rfl
@[simp] theorem followKeys_iReg (v : BitVec 16) : (s.followKeys v).iReg = s.iReg := rfl
@[simp] theorem followKeys_stack (v : BitVec 16) : (s.followKeys v).stack = s.stack := rfl
@[simp] theorem followKeys_sp (v : BitVec 16) : (s.followKeys v).sp = s.sp := rfl
@[simp] theorem followKeys_dt (v : BitVec 16) : (s.followKeys v).dt = s.dt := rfl
@[simp] theorem followKeys_st (v : BitVec 16) : (s.followKeys v).st = s.st := rfl
@[simp] theorem followKeys_ram (v : BitVec 16) : (s.followKeys v).ram = s.ram := rfl
@[simp] theorem followKeys_fb (v : BitVec 16) : (s.followKeys v).fb = s.fb := rfl
@[simp] theorem followKeys_keys (v : BitVec 16) : (s.followKeys v).keys = v := rfl
@[simp] theorem followKeys_halted (v : BitVec 16) : (s.followKeys v).halted = s.halted := rfl
@[simp] theorem followKeys_faultCause (v : BitVec 16) : (s.followKeys v).faultCause = s.faultCause := rfl

/-! ### `State.skipIf` -/

@[simp] theorem skipIf_x (c : Bool) : (s.skipIf c).x = s.x := by cases c <;> rfl
@[simp] theorem skipIf_iReg (c : Bool) : (s.skipIf c).iReg = s.iReg := by cases c <;> rfl
@[simp] theorem skipIf_stack (c : Bool) : (s.skipIf c).stack = s.stack := by cases c <;> rfl
@[simp] theorem skipIf_sp (c : Bool) : (s.skipIf c).sp = s.sp := by cases c <;> rfl
@[simp] theorem skipIf_dt (c : Bool) : (s.skipIf c).dt = s.dt := by cases c <;> rfl
@[simp] theorem skipIf_st (c : Bool) : (s.skipIf c).st = s.st := by cases c <;> rfl
@[simp] theorem skipIf_ram (c : Bool) : (s.skipIf c).ram = s.ram := by cases c <;> rfl
@[simp] theorem skipIf_fb (c : Bool) : (s.skipIf c).fb = s.fb := by cases c <;> rfl
@[simp] theorem skipIf_keys (c : Bool) : (s.skipIf c).keys = s.keys := by cases c <;> rfl
@[simp] theorem skipIf_halted (c : Bool) : (s.skipIf c).halted = s.halted := by cases c <;> rfl
@[simp] theorem skipIf_faultCause (c : Bool) : (s.skipIf c).faultCause = s.faultCause := by cases c <;> rfl
@[simp] theorem skipIf_pc (c : Bool) : (s.skipIf c).pc = if c then s.pc + 2#16 else s.pc := by cases c <;> rfl

/-! ### `State.reset` (spec/10_state.md R36) -/

@[simp] theorem reset_pc : State.reset.pc = 0x0200#16 := rfl
@[simp] theorem reset_iReg : State.reset.iReg = 0#16 := rfl
@[simp] theorem reset_sp : State.reset.sp = 0 := rfl
@[simp] theorem reset_dt : State.reset.dt = 0#8 := rfl
@[simp] theorem reset_st : State.reset.st = 0#8 := rfl
@[simp] theorem reset_ram : State.reset.ram = [] := rfl
@[simp] theorem reset_fb : State.reset.fb = Vector.replicate 32 0#64 := rfl
@[simp] theorem reset_keys : State.reset.keys = 0#16 := rfl
@[simp] theorem reset_halted : State.reset.halted = false := rfl
@[simp] theorem reset_faultCause : State.reset.faultCause = none := rfl

end Sys2Proof.Machine
end

