-- ==== Sys2Proof/Laws/Ops.lean ====
section
/-! SUPPORT. One lemma for each shared operation, which says everything it can do. -/

namespace Sys2Proof.Machine

/-! ### Registers -/

theorem readReg_writeReg (s : State) (i j : RegIdx) (v : Byte) :
    (s.writeReg i v).readReg j = if j = i then v else s.readReg j := by
  simp only [State.readReg, State.writeReg, Fin.getElem_fin, Vector.getElem_set, Fin.ext_iff, eq_comm]

/-- An update that keeps `x` keeps what every register reads. -/
theorem readReg_congr {s t : State} (h : t.x = s.x) (j : RegIdx) : t.readReg j = s.readReg j := by
  simp only [State.readReg, h]

theorem reset_readReg (j : RegIdx) : State.reset.readReg j = 0#8 := by
  simp [State.readReg, State.reset]

theorem reset_stack (k : Fin 16) : State.reset.stack[k] = 0#16 := by
  simp [State.reset]

/-! ### Arithmetic -/

theorem sumByte_toNat (a b : Byte) : (sumByte a b).toNat = (a.toNat + b.toNat) % 256 := by
  simp [sumByte]

theorem carryByte_toNat (a b : Byte) : (carryByte a b).toNat = if 255 < a.toNat + b.toNat then 1 else 0 := by
  unfold carryByte
  split <;> rfl

theorem countDown_toNat (t : Byte) : (countDown t).toNat = t.toNat - 1 := by
  have := t.isLt
  simp only [countDown, BitVec.toNat_ofNat]
  omega

theorem target_toNat (a : Addr12) : (target a).toNat = a.toNat := by
  have := a.isLt
  simp only [target, BitVec.toNat_setWidth]
  omega

/-! ### The stack engine -/

/-- Push writes one entry and counts it, or raises and writes nothing (spec/42_control_flow.md R140). -/
theorem push_cases (s : State) (v : Addr) :
    (s.sp.val = 16 ∧ s.push v = .error .stackOverflow) ∨
    ∃ t, s.push v = .ok t ∧ s.sp.val < 16 ∧ t.sp.val = s.sp.val + 1 ∧
      (∀ k : Fin 16, t.stack[k] = if k.val = s.sp.val then v else s.stack[k]) ∧
      t = { s with stack := t.stack, sp := t.sp } := by
  have hsp := s.sp.isLt
  unfold State.push
  by_cases h : s.sp.val < 16
  · refine .inr ⟨_, dif_pos h, h, rfl, fun k => ?_, rfl⟩
    simp only [Fin.getElem_fin, Vector.getElem_set, eq_comm]
  · exact .inl ⟨by omega, dif_neg h⟩

/-- Pop counts one entry off and returns it, or raises and changes nothing (spec/42_control_flow.md R141). -/
theorem pop_cases (s : State) :
    (s.sp.val = 0 ∧ s.pop = .error .stackUnderflow) ∨
    ∃ (k : Fin 16) (n : Fin 17), s.sp.val = k.val + 1 ∧ n.val = k.val ∧
      s.pop = .ok (s.stack[k], { s with sp := n }) := by
  have hsp := s.sp.isLt
  unfold State.pop
  by_cases h : 0 < s.sp.val
  · refine .inr ⟨⟨s.sp.val - 1, by omega⟩, ⟨s.sp.val - 1, by omega⟩, ?_, rfl, ?_⟩
    · simp only; omega
    · rw [dif_pos h]; rfl
  · exact .inl ⟨by omega, dif_neg h⟩

/-! ### Fetch -/

theorem canFetch_iff (s : State) : s.canFetch = true ↔ s.pc.toNat ≤ 0x0FFE := by
  unfold State.canFetch
  rw [decide_eq_true_eq]
  omega

theorem fetch_ok (s : State) (h : s.pc.toNat ≤ 0x0FFE) : s.fetch = .ok (s.wordAtPc, s.advancePc) :=
  if_pos ((canFetch_iff s).mpr h)

theorem fetch_error (s : State) (h : 0x0FFF ≤ s.pc.toNat) : s.fetch = .error .fetchOutOfBounds :=
  if_neg fun h' => by have := (canFetch_iff s).mp h'; omega

/-- Where a fetch succeeds the increment does not wrap (spec/10_state.md R25). -/
theorem advancePc_toNat (s : State) (h : s.pc.toNat ≤ 0x1000) : s.advancePc.pc.toNat = s.pc.toNat + 2 := by
  rw [advancePc_pc, BitVec.toNat_add]
  simp only [BitVec.toNat_ofNat]
  omega

/-! ### The framebuffer, the keys and the timers -/

theorem fbRead_clearFb (s : State) (k : Fin 2048) : s.clearFb.fbRead k = false := by
  simp [State.fbRead]

/-- Framebuffers with the same cells are the same. -/
theorem fb_ext {s t : State} (h : ∀ k : Fin 2048, t.fbRead k = s.fbRead k) : t.fb = s.fb := by
  refine Vector.ext fun r hr => BitVec.eq_of_getLsbD_eq fun c hc => ?_
  have := h ⟨64 * r + c, by omega⟩
  simpa only [State.fbRead, show (64 * r + c) / 64 = r by omega, show (64 * r + c) % 64 = c by omega] using this

theorem keyRead_writeKey (s : State) (k j : Fin 16) (b : Bool) :
    (s.writeKey k b).keyRead j = if j = k then b else s.keyRead j := by
  have hj := j.isLt
  by_cases h : j = k
  · subst h; cases b <;> simp [State.keyRead, State.writeKey]
  · have h' : j.val ≠ k.val := fun e => h (Fin.ext e)
    cases b <;> simp [State.keyRead, State.writeKey, h, h']

/-! ### The word that `withFetchWord` places -/

theorem wordOfBytes_bytesOfWord (w : Word) : wordOfBytes (bytesOfWord w).1 (bytesOfWord w).2 = w := by
  apply BitVec.eq_of_toNat_eq
  have := w.isLt
  simp only [wordOfBytes, bytesOfWord, BitVec.toNat_append, BitVec.extractLsb'_toNat, Nat.shiftRight_zero]
  rw [← Nat.shiftLeft_add_eq_or_of_lt (by omega), Nat.shiftLeft_eq, Nat.shiftRight_eq_div_pow]
  omega

theorem readyToFetch_canFetch (s : State) : s.readyToFetch.pc.toNat ≤ 0x0FFE := by
  unfold State.readyToFetch
  by_cases h : s.canFetch = true
  · simpa [h] using (canFetch_iff s).mp h
  · simp [h, Config.entry]

/-- A state that can fetch is left as it is. -/
theorem readyToFetch_self (s : State) (hh : s.halted = false) (hp : s.pc.toNat ≤ 0x0FFE) : s.readyToFetch = s := by
  have hc := (canFetch_iff s).mpr hp
  cases s
  simp_all [State.readyToFetch]

/-- The word stored at `a` is the word read at `a` (spec/20_memory.md R52). -/
theorem storeWord_read (s : State) (a : Nat) (w : Word) (hm : s.ram.wf = true) (ha : a ≤ 0x0FFE) :
    wordOfBytes ((s.storeWord a w).ram.read a) ((s.storeWord a w).ram.read (a + 1)) = w := by
  have h1 := writeRam_wf s (BitVec.ofNat 12 a) (bytesOfWord w).1 hm
  have e0 : (BitVec.ofNat 12 a).toNat = a := by simp only [BitVec.toNat_ofNat]; omega
  have e1 : (BitVec.ofNat 12 (a + 1)).toNat = a + 1 := by simp only [BitVec.toNat_ofNat]; omega
  unfold State.storeWord
  rw [writeRam_read _ _ _ _ h1, writeRam_read _ _ _ _ h1, writeRam_read _ _ _ _ hm, e0, e1]
  simp only [show ¬ a = a + 1 by omega, if_true, if_false]
  exact wordOfBytes_bytesOfWord w

end Sys2Proof.Machine
end

