-- ==== Sys2Proof/Laws/Step.lean ====
section
/-! SUPPORT. What a tick can do, said once, and that it always answers a next state. -/

namespace Sys2Proof.Machine

/-- Every instruction answers a next state, whatever the state. -/
theorem exec_next (i : Instr) (s : State) : ∃ t, exec i s = .next t := by
  cases i <;> exact ⟨_, rfl⟩

theorem step_halted (s : State) (h : s.halted = true) : step s = .next s := if_pos h

theorem step_fetch_error (s : State) (h : s.halted = false) (hp : 0x0FFF ≤ s.pc.toNat) :
    step s = .next (s.raise .fetchOutOfBounds) := by
  simp only [step, h, fetch_error s hp, Bool.false_eq_true, if_false]

theorem step_illegal (s : State) (h : s.halted = false) (hp : s.pc.toNat ≤ 0x0FFE) (c : IllegalClass)
    (hd : decode s.wordAtPc = .error c) : step s = .next (s.advancePc.raise .illegalOpcode) := by
  simp only [step, h, fetch_ok s hp, hd, Bool.false_eq_true, if_false]

theorem step_executes (s : State) (h : s.halted = false) (hp : s.pc.toNat ≤ 0x0FFE) (i : Instr)
    (hd : decode s.wordAtPc = .ok i) : step s = exec i s.advancePc := by
  simp only [step, h, fetch_ok s hp, hd, Bool.false_eq_true, if_false]

/-- The four things a tick can be (spec/40_step_cycle.md R110). -/
theorem step_cases (s : State) :
    (s.halted = true ∧ step s = .next s) ∨
    (s.halted = false ∧ 0x0FFF ≤ s.pc.toNat ∧ step s = .next (s.raise .fetchOutOfBounds)) ∨
    (s.halted = false ∧ s.pc.toNat ≤ 0x0FFE ∧ (∃ c, decode s.wordAtPc = .error c) ∧
      step s = .next (s.advancePc.raise .illegalOpcode)) ∨
    (s.halted = false ∧ s.pc.toNat ≤ 0x0FFE ∧ ∃ i, decode s.wordAtPc = .ok i ∧ step s = exec i s.advancePc) := by
  cases hh : s.halted with
  | true => exact .inl ⟨rfl, step_halted s hh⟩
  | false =>
    by_cases hp : s.pc.toNat ≤ 0x0FFE
    · cases hd : decode s.wordAtPc with
      | error c => exact .inr (.inr (.inl ⟨rfl, hp, ⟨c, rfl⟩, step_illegal s hh hp c hd⟩))
      | ok i => exact .inr (.inr (.inr ⟨rfl, hp, i, rfl, step_executes s hh hp i hd⟩))
    · exact .inr (.inl ⟨rfl, by omega, step_fetch_error s hh (by omega)⟩)

/-- The tick after `withFetchWord` runs the word it placed, on the state after its fetch. -/
theorem step_withFetchWord (s : State) (n w : Nat) (hm : s.ram.wf = true) (i : Instr)
    (hd : decode (BitVec.ofNat 16 (w % 2 ^ n)) = .ok i) :
    step (s.withFetchWord n w) = exec i (s.withFetchWord n w).advancePc := by
  have hp := readyToFetch_canFetch s
  have hw : (s.withFetchWord n w).wordAtPc = BitVec.ofNat 16 (w % 2 ^ n) :=
    storeWord_read s.readyToFetch s.readyToFetch.pc.toNat _ hm hp
  exact step_executes (s.withFetchWord n w) rfl hp i (hw ▸ hd)

end Sys2Proof.Machine
end

