-- ==== Sys2Proof/Tests/Slice0.lean ====
section
/-! SUPPORT. The model's own tests. Expected values come from spec/95_test_vectors.md, whose vector each comment names, or
from the rule it names. Then, for each obligation that has hypotheses, named theorems with a concrete state and operands
that meet them all together. -/

namespace Sys2Proof.Machine

/-! ### Well-formedness: an ill-formed line for each check (spec/30_encoding.md R94) -/

/-- Each form with its largest numbers is well formed. -/
theorem test_wf_accepts : [Line.nop, .cls, .ret, .jp 0xFFF, .call 0xFFF, .seImm 15 255, .sneImm 15 255, .seReg 15 15,
    .ldImm 15 255, .addImm 15 255, .ldReg 15 15, .orReg 15 15, .andReg 15 15, .xorReg 15 15,
    .addReg 15 15].all Line.wellFormed = true := by decide

/-- An address that does not fit `NNN` is refused. -/
theorem test_wf_refuses_addr : (Line.jp 0x1000).assemble = none ∧ (Line.call 0x1000).assemble = none := by decide

/-- A register that does not fit `X` is refused in every form that has the field. -/
theorem test_wf_refuses_x : [Line.seImm 16 0, .sneImm 16 0, .seReg 16 0, .ldImm 16 0, .addImm 16 0, .ldReg 16 0,
    .orReg 16 0, .andReg 16 0, .xorReg 16 0, .addReg 16 0].all (fun l => l.assemble == none) = true := by decide

/-- A register that does not fit `Y` is refused in every form that has the field. -/
theorem test_wf_refuses_y : [Line.seReg 0 16, .ldReg 0 16, .orReg 0 16, .andReg 0 16, .xorReg 0 16,
    .addReg 0 16].all (fun l => l.assemble == none) = true := by decide

/-- A number that does not fit `NN` is refused in every form that has the field. -/
theorem test_wf_refuses_byte : [Line.seImm 0 256, .sneImm 0 256, .ldImm 0 256, .addImm 0 256].all
    (fun l => l.assemble == none) = true := by decide

/-- The two-byte example of S7: `LD V0, 5` is 0x6005. -/
theorem test_assemble : (Line.ldImm 0 5).assemble.map encode = some 0x6005#16 := by decide

/-- R94: a register is written with its hexadecimal digit. -/
theorem test_asm : (Instr.addReg 10 15).asm = "ADD VA, VF" ∧ (Instr.jp 0x20A#12).asm = "JP 0x20A" ∧
    (Instr.seImm 0 0x05#8).asm = "SE V0, 0x05" := by decide

/-! ### Decoding: words written out from the patterns of spec/30_encoding.md R86 -/

/-- W1. -/
theorem test_decode_nop : decode 0b0000_0000_0000_0000#16 = .ok .nop := by decide
/-- W3. -/
theorem test_decode_cls : decode 0b0000_0000_1110_0000#16 = .ok .cls := by decide
/-- W5. -/
theorem test_decode_ret : decode 0b0000_0000_1110_1110#16 = .ok .ret := by decide
/-- W13, with unequal digits: 1NNN. -/
theorem test_decode_jp : decode 0b0001_0010_0011_0100#16 = .ok (.jp 0x234#12) := by decide
/-- W14: 2NNN. -/
theorem test_decode_call : decode 0b0010_1010_1011_1100#16 = .ok (.call 0xABC#12) := by decide
/-- W15: 3XNN. -/
theorem test_decode_seImm : decode 0b0011_1111_0000_0000#16 = .ok (.seImm 15 0x00#8) := by decide
/-- W16: 4XNN. -/
theorem test_decode_sneImm : decode 0b0100_1010_0101_0101#16 = .ok (.sneImm 10 0x55#8) := by decide
/-- W17: 5XY0. -/
theorem test_decode_seReg : decode 0b0101_0001_0010_0000#16 = .ok (.seReg 1 2) := by decide
/-- W20: 6XNN. -/
theorem test_decode_ldImm : decode 0b0110_1111_0001_0010#16 = .ok (.ldImm 15 0x12#8) := by decide
/-- W21: 7XNN. -/
theorem test_decode_addImm : decode 0b0111_0000_0000_0001#16 = .ok (.addImm 0 0x01#8) := by decide
/-- W22: 8XY0. -/
theorem test_decode_ldReg : decode 0b1000_1010_1011_0000#16 = .ok (.ldReg 10 11) := by decide
/-- W23: 8XY1. -/
theorem test_decode_orReg : decode 0b1000_1010_1011_0001#16 = .ok (.orReg 10 11) := by decide
/-- W24: 8XY2. -/
theorem test_decode_andReg : decode 0b1000_1010_1011_0010#16 = .ok (.andReg 10 11) := by decide
/-- W25: 8XY3. -/
theorem test_decode_xorReg : decode 0b1000_1010_1011_0011#16 = .ok (.xorReg 10 11) := by decide
/-- W26: 8XY4. -/
theorem test_decode_addReg : decode 0b1000_1010_1011_0100#16 = .ok (.addReg 10 11) := by decide

/-- W2, W4, W6 to W9: the 0 family. -/
theorem test_illegal_zero : [0x0001#16, 0x00E1#16, 0x00EF#16, 0x00FF#16, 0x0123#16, 0x0FFF#16].all
    (fun w => decode w == .error .zeroFamily) = true := by decide
/-- W18, W19: the 5 family. -/
theorem test_illegal_five : decode 0x5121#16 = .error .fiveFamily ∧ decode 0x512F#16 = .error .fiveFamily := by decide
/-- W27: the 8 family. -/
theorem test_illegal_eight : [0x8AB5#16, 0x8AB6#16, 0x8AB7#16, 0x8AB8#16, 0x8ABE#16, 0x8ABF#16].all
    (fun w => decode w == .error .eightFamily) = true := by decide
/-- W10, W11, W28 to W30: the families from 9. -/
theorem test_illegal_high : [0xE000#16, 0xEE00#16, 0x9AB0#16, 0xA123#16, 0xB200#16, 0xC0FF#16, 0xD015#16, 0xE09E#16,
    0xF007#16, 0xFFFF#16].all (fun w => decode w == .error .highFamily) = true := by decide

/-- R52: the first byte is the high one; a lone byte is no instruction (R80). -/
theorem test_decodeBytes : decodeBytes [0x60#8, 0x05#8, 0xFF#8] = .ok (.ldImm 0 0x05#8, [0xFF#8]) ∧
    decodeBytes [0x60#8] = .error .truncated := by decide

/-- The table's numbering of a word's bits: 0x8AB4 in 16 bits. -/
theorem test_decodeTableWord : decodeTableWord 16 0x8AB4 = some (.addReg 10 11) ∧ decodeTableWord 16 0x512F = none ∧
    decodeTableWord 17 0x0000 = none := by decide

/-! ### Ticks -/

/-- The next state of a tick, where there is one. -/
def tickOf (s : State) : Option State :=
  match step s with
  | .next t => some t
  | .fault _ => none
  | .refused _ => none

/-- The next state of a transaction, where there is one. -/
def after (t : Transaction) (s : State) : Option State :=
  match transact t s with
  | .next u => some u
  | .fault _ => none
  | .refused _ => none

/-- A launch state (spec/46_host_interface.md R211): the reset state with a `pc`, the word there, and two registers. -/
def launch (pc : Addr) (w : Word) (i : RegIdx) (a : Byte) (j : RegIdx) (b : Byte) : State :=
  ((((State.reset.writeReg i a).writeReg j b).setPc pc).storeWord pc.toNat w)

/-- A launch state with a stack. -/
def launchStack (pc : Addr) (w : Word) (sp : Fin 17) (k : Fin 16) (v : Addr) : State :=
  let s := launch pc w 0 0 0 0
  { s with sp := sp, stack := s.stack.set k.val v }

/-- `pc`, `halted` and the cause after a tick. -/
def ends (s : State) : Option (Addr × Bool × BitVec 3) := (tickOf s).map fun t => (t.pc, t.halted, causeCode t.faultCause)

/-- Y1. -/
theorem test_nop : tickOf (launch 0x0200 0x0000 3 0x42 0 0) = some (launch 0x0202 0x0000 3 0x42 0 0) := by decide
/-- Y2: `fb` set everywhere. -/
theorem test_cls : (tickOf ((fun s => { s with fb := Vector.replicate 32 (BitVec.allOnes 64) }) (launch 0x0200 0x00E0 0 0 0 0))).map
    (fun t => (t.fb, t.pc)) = some (Vector.replicate 32 0#64, 0x0202#16) := by decide
/-- CF9: the entry is not erased. -/
theorem test_ret : (tickOf (launchStack 0x020C 0x00EE 1 0 0x0204)).map (fun t => (t.pc, t.sp, t.stack[0])) =
    some (0x0204#16, 0, 0x0204#16) := by decide
/-- CF11. -/
theorem test_ret_empty : ends (launch 0x0300 0x00EE 0 0 0 0) = some (0x0302#16, true, 4#3) := by decide
/-- CF1 and CF3. -/
theorem test_jp : ends (launch 0x0200 0x1206 0 0 0 0) = some (0x0206#16, false, 0#3) ∧
    ends (launch 0x0200 0x1FFF 0 0 0 0) = some (0x0FFF#16, false, 0#3) := by decide
/-- CF7: the sixteenth push. -/
theorem test_call : (tickOf (launchStack 0x0200 0x2300 15 0 0x0111)).map (fun t => (t.pc, t.sp, t.stack[15], t.stack[0])) =
    some (0x0300#16, 16, 0x0202#16, 0x0111#16) := by decide
/-- CF8. -/
theorem test_call_full : ends (launchStack 0x0200 0x2300 16 15 0x0111) = some (0x0202#16, true, 3#3) := by decide
/-- K1, K2 and K9. -/
theorem test_seImm : ends (launch 0x0208 0x3005 0 5 0 5) = some (0x020C#16, false, 0#3) ∧
    ends (launch 0x0208 0x3005 0 4 0 4) = some (0x020A#16, false, 0#3) ∧
    ends (launch 0x0FFE 0x3000 0 0 0 0) = some (0x1002#16, false, 0#3) := by decide
/-- K3, K4. -/
theorem test_sneImm : ends (launch 0x0212 0x4400 4 0x66 4 0x66) = some (0x0216#16, false, 0#3) ∧
    ends (launch 0x0212 0x4400 4 0 4 0) = some (0x0214#16, false, 0#3) := by decide
/-- K5, K6. -/
theorem test_seReg : ends (launch 0x0210 0x5230 2 0xEE 3 0x88) = some (0x0212#16, false, 0#3) ∧
    ends (launch 0x0210 0x5230 2 0xEE 3 0xEE) = some (0x0214#16, false, 0#3) := by decide

/-- Two registers after a tick. -/
def regsAfter (s : State) (i j : RegIdx) : Option (Byte × Byte) := (tickOf s).map fun t => (t.readReg i, t.readReg j)

/-- I1, I3. -/
theorem test_ldImm : regsAfter (launch 0x0200 0x6005 0 0 0 0) 0 15 = some (0x05#8, 0x00#8) ∧
    regsAfter (launch 0x0200 0x6FFF 0 0 0 0) 15 0 = some (0xFF#8, 0x00#8) := by decide
/-- I7: the flag is not touched; I9: `X = 15` is added to like any register. -/
theorem test_addImm : regsAfter (launch 0x0200 0x7001 0 0xFF 15 0x01) 0 15 = some (0x00#8, 0x01#8) ∧
    regsAfter (launch 0x0200 0x7FFF 15 0x01 15 0x01) 15 0 = some (0x00#8, 0x00#8) := by decide
/-- A1. -/
theorem test_ldReg : regsAfter (launch 0x0200 0x8200 0 0xCC 2 0x11) 2 0 = some (0xCC#8, 0xCC#8) := by decide
/-- A3. -/
theorem test_orReg : regsAfter (launch 0x0200 0x8211 2 0xCC 1 0xAA) 2 1 = some (0xEE#8, 0xAA#8) := by decide
/-- A4. -/
theorem test_andReg : regsAfter (launch 0x0200 0x8312 3 0xCC 1 0xAA) 3 1 = some (0x88#8, 0xAA#8) := by decide
/-- A5, A6. -/
theorem test_xorReg : regsAfter (launch 0x0200 0x8413 4 0xCC 1 0xAA) 4 1 = some (0x66#8, 0xAA#8) ∧
    regsAfter (launch 0x0200 0x8553 5 0x3C 5 0x3C) 5 15 = some (0x00#8, 0x00#8) := by decide
/-- A8, A13. -/
theorem test_addReg : regsAfter (launch 0x0200 0x8014 0 0xF0 1 0x20) 0 15 = some (0x10#8, 0x01#8) ∧
    regsAfter (launch 0x0200 0x8014 0 0xFF 1 0x00) 0 15 = some (0xFF#8, 0x00#8) := by decide
/-- A9 and A11: `X = 15`, then `Y = 15`. -/
theorem test_addReg_flag : regsAfter (launch 0x0200 0x8F14 15 0xF0 1 0x20) 15 1 = some (0x01#8, 0x20#8) ∧
    regsAfter (launch 0x0200 0x83F4 3 0x10 15 0x07) 3 15 = some (0x17#8, 0x00#8) := by decide

/-- F2: an odd address. -/
theorem test_fetch_odd : regsAfter (launch 0x0201 0x6107 0 0 0 0) 1 0 = some (0x07#8, 0x00#8) := by decide
/-- F5 and F6: no fetch, and `pc` as it was. -/
theorem test_fetch_outside : ends (State.reset.setPc 0x0FFF) = some (0x0FFF#16, true, 1#3) ∧
    ends (State.reset.setPc 0xFFFE) = some (0xFFFE#16, true, 1#3) := by decide
/-- W8 as a tick. -/
theorem test_illegal_tick : ends (launch 0x0200 0x0123 0 0 0 0) = some (0x0202#16, true, 2#3) := by decide
/-- F7: a halted block. -/
theorem test_halted_tick : tickOf ((State.reset.setPc 0x0202).raise .illegalOpcode) =
    some ((State.reset.setPc 0x0202).raise .illegalOpcode) := by decide

/-- T9 and T12: timers, running or halted. -/
theorem test_timers : (after .tickTimers { State.reset with dt := 3, st := 1 }).map (fun t => (t.dt, t.st)) = some (2#8, 0#8) ∧
    toneEnd .tickTimers { State.reset with dt := 5, st := 1, halted := true, faultCause := some .illegalOpcode } = true ∧
    toneEnd .tickTimers { State.reset with st := 2 } = false := by decide
/-- Z1 in part: reset out of the halted state, with no event. -/
theorem test_reset : after .reset { State.reset with st := 1, halted := true, faultCause := some .stackOverflow, iReg := 0x123 } =
    some State.reset ∧ toneEnd .reset { State.reset with st := 1 } = false := by decide
/-- R205: key 5 goes up and down. -/
theorem test_keys : (after (.keyWrite 5 true) State.reset).map (·.keys) = some 0x0020#16 ∧
    (after (.keyWrite 5 false) { State.reset with keys := 0xFFFF }).map (·.keys) = some 0xFFDF#16 := by decide
/-- R204 and log 3: writing the reset contents back removes the cell. -/
theorem test_ram : ((State.reset.writeRam 0x200 0x60).writeRam 0x200 0x00).ram = [] ∧
    ((State.reset.writeRam 0x300 0x01).writeRam 0x200 0x60).ram = [(0x200, 0x60#8), (0x300, 0x01#8)] := by decide
/-- `x[0]`, `x[1]` and `st` after an edge on which a RAM write, a timer tick and a tick are requested. -/
def edge (a : Addr12) (v : Byte) (s : State) : Option (Byte × Byte × Byte) :=
  match serve ⟨false, some (a, v), true, true⟩ s with
  | .next t => some (t.readReg 0, t.readReg 1, t.st)
  | .fault _ => none
  | .refused _ => none

/-- R209: 0x6005 stands at `pc`; a write to its first byte on the same edge makes the tick run 0x6105, one to its second byte
0x6007. -/
theorem test_serve :
    edge 0x200#12 0x61#8 { launch 0x0200 0x6005 0 0 0 0 with st := 2 } = some (0x00#8, 0x05#8, 1#8) ∧
    edge 0x201#12 0x07#8 { launch 0x0200 0x6005 0 0 0 0 with st := 2 } = some (0x07#8, 0x00#8, 1#8) := by decide

/-- The word that `withFetchWord` places is the one the next tick runs, from reset (log 12). -/
theorem test_withFetchWord : (tickOf (State.reset.withFetchWord 16 0x6005)).map (fun t => (t.readReg 0, t.pc)) =
    some (0x05#8, 0x0202#16) := by decide
/-- It runs too from a halted state. -/
theorem test_withFetchWord_halted : ((tickOf (((State.reset.setPc 0x1000).raise .fetchOutOfBounds).withFetchWord 16 0x6005)).map
    (fun t => (t.readReg 0, t.pc, t.halted))) = some (0x05#8, 0x0202#16, false) := by decide

/-! ### Witnesses: the hypotheses of each obligation are met together -/

/-- The hypotheses of `UnloadedRamRunsAsNops`, at both ends. -/
theorem witness_UnloadedRamRunsAsNops : 0 ≤ 1792 ∧ 1792 ≤ 1792 := by decide
theorem witness_DecodeOfEncodeIsTheInstruction : WellFormed (.addReg 15 0) = true ∧ WellFormed (.jp 0xFFF#12) = true := by decide
theorem witness_EncodeOfDecodeIsTheWord : decode 0x8F04#16 = .ok (.addReg 15 0) := by decide
/-- One word, one row twice. -/
theorem witness_DecodeFollowsTheOpcodeMap : (⟨0x00EE#16, 0xFFFF#16⟩ : OpcodeRow) ∈ opcodeTable ∧
    OpcodeRow.matches ⟨0x00EE#16, 0xFFFF#16⟩ 0x00EE#16 = true := by decide
/-- The largest numbers in range and the smallest out of it, for each of the four operands. -/
theorem witness_LinesAssembleToTheirWords : (15 < 16 ∧ 255 < 256 ∧ 4095 < 4096) ∧ 4096 ≤ 4096 ∧ (16 ≤ 16 ∨ 256 ≤ 0) ∧
    (16 ≤ 0 ∨ 256 ≤ 256) ∧ (16 ≤ 16 ∨ 16 ≤ 0) ∧ (16 ≤ 0 ∨ 16 ≤ 16) := by decide
theorem witness_FetchReadsTwoBytesHighFirst : (State.reset.setPc 0x0FFE).pc.toNat ≤ 0x0FFE ∧
    0x0FFF ≤ (State.reset.setPc 0x0FFF).pc.toNat := by decide
theorem witness_StepRunsTheDecodedInstruction : ∃ s : State, s.halted = false ∧ s.pc.toNat ≤ 0x0FFE ∧
    decode (wordOfBytes (s.ram.read s.pc.toNat) (s.ram.read (s.pc.toNat + 1))) = .ok (.call 0xABC#12) ∧
    WellFormed (.call 0xABC#12) = true := ⟨launch 0x0FFE 0x2ABC 0 0 0 0, by decide⟩
theorem witness_FetchOutsideRamHalts : (State.reset.setPc 0x0FFF).halted = false ∧
    0x0FFF ≤ (State.reset.setPc 0x0FFF).pc.toNat ∧ 0x0FFF ≤ (State.reset.setPc 0xFFFF).pc.toNat := by decide

/-- The hypotheses of `IllegalWordHalts`, for a word at the highest address that can be fetched. -/
abbrev FetchesIllegal (w : Word) : Prop :=
  (launch 0x0FFE w 0 0 0 0).halted = false ∧ (launch 0x0FFE w 0 0 0 0).pc.toNat ≤ 0x0FFE ∧
    (launch 0x0FFE w 0 0 0 0).wordAtPc = w

/-- One word of each class. -/
theorem witness_IllegalWordHalts :
    (FetchesIllegal 0x0001#16 ∧ 0x0001 / 4096 = 0 ∧ 0x0001 ≠ 0 ∧ 0x0001 ≠ 0x00E0 ∧ 0x0001 ≠ 0x00EE) ∧
    (FetchesIllegal 0x5001#16 ∧ 0x5001 / 4096 = 5 ∧ 0x5001 % 16 ≠ 0) ∧
    (FetchesIllegal 0x8005#16 ∧ 0x8005 / 4096 = 8 ∧ 5 ≤ 0x8005 % 16) ∧
    (FetchesIllegal 0x9000#16 ∧ 9 ≤ 0x9000 / 4096) := by decide
theorem witness_HaltedTickChangesNothing : (State.reset.raise .stackOverflow).halted = true := by decide
/-- Each clause of `PcAtTheEndOfATick` at its boundary: `pc`, a full and a not full stack, an empty and a not empty one. -/
theorem witness_PcAtTheEndOfATick :
    (State.reset.halted = false ∧ 0x0FFF ≤ (State.reset.setPc 0x0FFF).pc.toNat) ∧
    (∃ s : State, s.halted = false ∧ s.pc.toNat ≤ 0x0FFE ∧ decode s.wordAtPc = .ok (.call 0x300#12) ∧ s.sp.val < 16) ∧
    (∃ s : State, s.halted = false ∧ s.pc.toNat ≤ 0x0FFE ∧ decode s.wordAtPc = .ok (.call 0x300#12) ∧ s.sp.val = 16) ∧
    (∃ s : State, s.halted = false ∧ s.pc.toNat ≤ 0x0FFE ∧ decode s.wordAtPc = .ok .ret ∧ s.sp.val = 15 + 1) ∧
    (∃ s : State, s.halted = false ∧ s.pc.toNat ≤ 0x0FFE ∧ decode s.wordAtPc = .ok .ret ∧ s.sp.val = 0) :=
  ⟨by decide, ⟨launchStack 0x0FFE 0x2300 15 0 0, by decide⟩, ⟨launchStack 0x0FFE 0x2300 16 0 0, by decide⟩,
    ⟨launchStack 0x0FFE 0x00EE 16 0 0, by decide⟩, ⟨launchStack 0x0FFE 0x00EE 0 0 0, by decide⟩⟩
theorem witness_FaultsArisePreciselyInOrder : State.reset.halted = false ∧ State.reset.causeMatchesHalt := by decide
theorem witness_FaultingTickChangesNothingElse : ∃ s t : State, s.halted = false ∧ step s = .next t ∧ t.halted = true :=
  ⟨State.reset.setPc 0x0FFF, (State.reset.setPc 0x0FFF).raise .fetchOutOfBounds, rfl, rfl, rfl⟩
theorem witness_TickChangesAtMostWhatR116Lists : ∃ s t : State, step s = .next t ∧ s.halted = false ∧ t.halted = false :=
  ⟨State.reset, State.reset.setPc 0x0202, rfl, rfl, rfl⟩
/-- Its inner hypotheses: a word of no `ADD Vx, Vy`, and one below 0x6000, which leave the block running. -/
theorem witness_TickChangesAtMostWhatR116Lists_words :
    ends (launch 0x0200 0x8011 0 1 1 2) = some (0x0202#16, false, 0#3) ∧
    (launch 0x0200 0x8011 0 1 1 2).wordAtPc &&& 0xF00F#16 ≠ 0x8004#16 ∧
    ends (launch 0x0200 0x5FF0 0 0 0 0) = some (0x0204#16, false, 0#3) ∧
    (launch 0x0200 0x5FF0 0 0 0 0).wordAtPc.toNat < 0x6000 := by decide
/-- Two states that differ in everything outside the core. -/
theorem witness_TickDependsOnTheCoreAlone : ∃ s s' t : State, AgreeOnCore s s' ∧ step s = .next t ∧ s ≠ s' :=
  ⟨State.reset, { State.reset with keys := 1, dt := 2, st := 3, fb := Vector.replicate 32 4, iReg := 5, stack := Vector.replicate 16 6 },
    State.reset.setPc 0x0202, ⟨rfl, fun _ => rfl, rfl, by decide, fun _ => rfl, ⟨rfl, rfl⟩⟩, rfl, by decide⟩
theorem witness_JumpToItselfIsAFixedPoint : (launch 0x0200 0x1200 0 0 0 0).parked ∧ (launch 0x0FFE 0x1FFE 0 0 0 0).parked := by
  decide
/-- One entry on the stack, and sixteen. -/
theorem witness_RetPopsIntoPc : (launchStack 0x0302 0x00EE 1 0 0x0204).sp.val = (0 : Fin 16).val + 1 ∧
    (launchStack 0x0302 0x00EE 16 15 0x041E).sp.val = (15 : Fin 16).val + 1 := by decide
theorem witness_RetOnAnEmptyStackHalts : State.reset.sp.val = 0 := by decide
/-- An empty stack, and one with fifteen entries. -/
theorem witness_CallPushesAndJumps : State.reset.sp.val < 16 ∧ (launchStack 0x0200 0x2300 15 0 0).sp.val < 16 := by decide
theorem witness_CallOnAFullStackHalts : (launchStack 0x0200 0x2300 16 0 0).sp.val = 16 := by decide
/-- From `sp = 15`; the `RET` follows at once. -/
theorem witness_RetUndoesCall : ∃ s t u : State, s.sp.val = (15 : Fin 16).val ∧ exec (.call 0x300#12) s = .next t ∧
    u.sp = t.sp ∧ u.stack[(15 : Fin 16)] = t.stack[(15 : Fin 16)] :=
  ⟨{ State.reset with sp := 15 }, _, _, rfl, rfl, rfl, rfl⟩
/-- The words next to `NOP` and at the end of the 0 family. -/
theorem witness_NopChangesNothing : (0x0001#16).toNat < 0x1000 ∧ 0x0001#16 ≠ 0x0000#16 ∧ 0x0001#16 ≠ 0x00E0#16 ∧
    0x0001#16 ≠ 0x00EE#16 ∧ (0x0FFF#16).toNat < 0x1000 := by decide
theorem witness_SeRegSkipsOnEqual : 0x5771#16 &&& 0xF000#16 = 0x5000#16 ∧ fieldX 0x5771#16 = 7 ∧ fieldY 0x5771#16 = 7 ∧
    (0x5771#16).toNat % 16 ≠ 0 ∧ (7 : RegIdx) = 7 := by decide
theorem witness_XorWritesTheBitwiseXor : (5 : RegIdx) = 5 := by decide
theorem witness_AddRegAddsAndSetsTheCarry : (14 : RegIdx) ≠ 15 := by decide

/-- The reset state meets the invariant. -/
theorem reset_inv : State.reset.Inv := ⟨by decide, by decide, rfl, by decide, rfl⟩

/-- So does a state at every bound of it. -/
theorem bound_inv : State.Inv { State.reset with
    pc := 0x1002, sp := 16, stack := Vector.replicate 16 0x1000, halted := true, faultCause := some .stackOverflow,
    ram := [(0x200, 0x12#8), (0xFFF, 0x01#8)] } := ⟨by decide, by decide, rfl, by decide, rfl⟩
theorem witness_EveryStepKeepsTheInvariant : ∃ s t : State, s.Inv ∧ step s = .next t ∧ t.pc ≠ s.pc :=
  ⟨State.reset, State.reset.setPc 0x0202, reset_inv, rfl, by decide⟩
theorem witness_EveryTransactionKeepsTheInvariant : ∃ s : State, s.Inv ∧ s ≠ State.reset :=
  ⟨_, bound_inv, by decide⟩
theorem witness_SoundFallsWithToneEnd : Transaction.tick ≠ .tickTimers ∧ Transaction.reset ≠ .tickTimers := by decide
theorem witness_RamWriteSetsOneByte : State.reset.ram.wf = true ∧ (launch 0x0FFE 0x6005 0 0 0 0).ram.wf = true := by decide
theorem witness_StateReadsShowTheWholeState : ∃ s t : State, s.ram.wf = true ∧ t.ram.wf = true ∧
    ∀ e : Element, readOut (.stateRead e) s = readOut (.stateRead e) t :=
  ⟨launch 0x0FFE 0x6005 0 1 2 3, launch 0x0FFE 0x6005 0 1 2 3, by decide, by decide, fun _ => rfl⟩
/-- Both clauses: a reset request with others; and a state at the last address that can be fetched, whose first byte a write to
0xFFE, and whose second a write to 0xFFF, makes a byte of an instruction, or of an illegal word. -/
theorem witness_SimultaneousRequestsAreOrdered : (⟨true, some (0#12, 1#8), true, true⟩ : Requests).rst = true ∧
    ((launch 0x0FFE 0x6005 0 0 0 0).halted = false ∧ (launch 0x0FFE 0x6005 0 0 0 0).pc.toNat ≤ 0x0FFE ∧
      (launch 0x0FFE 0x6005 0 0 0 0).ram.wf = true) ∧
    (0xFFE#12).toNat = (launch 0x0FFE 0x6005 0 0 0 0).pc.toNat ∧
    decode (wordOfBytes 0x61#8 ((launch 0x0FFE 0x6005 0 0 0 0).ram.read 0x0FFF)) = .ok (.ldImm 1 0x05#8) ∧
    decode (wordOfBytes 0x90#8 ((launch 0x0FFE 0x6005 0 0 0 0).ram.read 0x0FFF)) = .error .highFamily ∧
    (0xFFF#12).toNat = (launch 0x0FFE 0x6005 0 0 0 0).pc.toNat + 1 ∧
    decode (wordOfBytes ((launch 0x0FFE 0x6005 0 0 0 0).ram.read 0x0FFE) 0x07#8) = .ok (.ldImm 0 0x07#8) := by decide
theorem witness_OnlyResetLeavesTheHaltedState : (State.reset.raise .illegalOpcode).halted = true ∧
    Transaction.reset ∉ [.tick, .tickTimers, .ramWrite 0#12 1#8, .keyWrite 0 true, .stateRead .pc] := by decide
/-- The first and the last cell. -/
theorem witness_EveryCellIsOnePixel : fbIndex 63 31 = 2047 ∧ fbIndex 0 0 = 0 := by decide

end Sys2Proof.Machine
end

/-! PROOFS. The family of the state (spec/10_state.md): the invariant of R38, `pc` at the end of a tick (R24) and the cells of
the framebuffer (R31). -/

namespace Sys2Proof.Machine

/-! ### The meanings that may raise -/

/-- `RET` raises on an empty stack, and otherwise goes to the newest entry and counts it off (spec/42_control_flow.md R142). -/
theorem execRet_cases (s : State) :
    (s.sp.val = 0 ∧ execRet s = .next (s.raise .stackUnderflow)) ∨
    ∃ (k : Fin 16) (n : Fin 17), s.sp.val = k.val + 1 ∧ n.val = k.val ∧
      execRet s = .next (State.setPc { s with sp := n } s.stack[k]) := by
  obtain ⟨hsp, hpop⟩ | ⟨k, n, hsp, hn, hpop⟩ := pop_cases s
  · exact .inl ⟨hsp, by simp only [execRet, hpop, Except.map, State.orRaise]⟩
  · exact .inr ⟨k, n, hsp, hn, by simp only [execRet, hpop, Except.map, State.orRaise]⟩

/-- `CALL` raises on a full stack, and otherwise jumps in the state that the push left (spec/42_control_flow.md R144). -/
theorem execCall_cases (nnn : Addr12) (s : State) :
    (s.sp.val = 16 ∧ execCall nnn s = .next (s.raise .stackOverflow)) ∨
    ∃ t, s.sp.val < 16 ∧ s.push s.pc = .ok t ∧ execCall nnn s = .next (t.setPc (target nnn)) := by
  obtain ⟨hsp, hpush⟩ | ⟨t, hpush, hsp, -⟩ := push_cases s s.pc
  · exact .inl ⟨hsp, by simp only [execCall, hpush, Except.map, State.orRaise]⟩
  · exact .inr ⟨t, hsp, hpush, by simp only [execCall, hpush, Except.map, State.orRaise]⟩

/-! ### What each operation does to the invariant -/

namespace State.Inv

variable {s : State}

/-- The invariant at reset, the base case of R38. -/
theorem reset : State.reset.Inv where
  pcBounded := by simp
  liveEntries k hk := by simp at hk
  iRegZero := reset_iReg
  causeMatches := by simp [State.causeMatchesHalt]
  ramCanonical := reset_ram_wf

theorem setPc (h : s.Inv) {v : Addr} (hv : v.toNat ≤ 0x1002) : (s.setPc v).Inv := { h with pcBounded := hv }

theorem writeReg (h : s.Inv) (i : RegIdx) (v : Byte) : (s.writeReg i v).Inv := { h with }

theorem clearFb (h : s.Inv) : s.clearFb.Inv := { h with }

theorem countTimers (h : s.Inv) : s.countTimers.Inv := { h with }

theorem writeKey (h : s.Inv) (k : Fin 16) (b : Bool) : (s.writeKey k b).Inv := { h with }

theorem writeRam (h : s.Inv) (a : Addr12) (v : Byte) : (s.writeRam a v).Inv :=
  { h with ramCanonical := writeRam_wf s a v h.ramCanonical }

theorem raise (h : s.Inv) (f : Fault) : (s.raise f).Inv := { h with causeMatches := by simp [State.causeMatchesHalt] }

/-- An increment from an address up to 0x1000 stays within the bound. -/
theorem advancePc (h : s.Inv) (hp : s.pc.toNat ≤ 0x1000) : s.advancePc.Inv :=
  { h with pcBounded := by rw [advancePc_toNat s hp]; omega }

/-- A skip from a post-fetch `pc` stays within the bound. -/
theorem skipIf (h : s.Inv) (hp : s.pc.toNat ≤ 0x1000) (c : Bool) : (s.skipIf c).Inv := by
  cases c with
  | false => exact h
  | true => exact h.advancePc hp

/-- Counting entries off keeps the invariant: fewer are live. -/
theorem lowerSp (h : s.Inv) {n : Fin 17} (hn : n.val ≤ s.sp.val) : State.Inv { s with sp := n } :=
  { h with liveEntries := fun k hk => h.liveEntries k (lt_of_lt_of_le hk hn) }

end State.Inv

/-- A push keeps the invariant when the address pushed is a post-fetch `pc`. -/
theorem push_keeps_inv {s t : State} (h : s.Inv) {v : Addr} (hv : v.toNat ≤ 0x1000) (ht : s.push v = .ok t) :
    t.Inv := by
  obtain ⟨-, herr⟩ | ⟨u, hu, -, hsp, hstack, hframe⟩ := push_cases s v
  · rw [herr] at ht; cases ht
  · obtain rfl : u = t := by rw [hu] at ht; exact Except.ok.inj ht
    rw [hframe]
    refine { h with liveEntries := fun k (hk : k.val < u.sp.val) => show u.stack[k].toNat ≤ 0x1000 from ?_ }
    rw [hstack]
    split
    · exact hv
    · exact h.liveEntries k (by omega)

theorem execRet_keeps_inv {s t : State} (h : s.Inv) (ht : execRet s = .next t) : t.Inv := by
  obtain ⟨-, he⟩ | ⟨k, n, hsp, hn, he⟩ := execRet_cases s <;> cases he.symm.trans ht
  · exact h.raise _
  · have hk : s.stack[k].toNat ≤ 0x1000 := h.liveEntries k (by omega)
    exact (h.lowerSp (by omega)).setPc (by omega)

theorem execCall_keeps_inv {s t : State} (h : s.Inv) (hp : s.pc.toNat ≤ 0x1000) {nnn : Addr12}
    (ht : execCall nnn s = .next t) : t.Inv := by
  obtain ⟨-, he⟩ | ⟨u, -, hpush, he⟩ := execCall_cases nnn s <;> cases he.symm.trans ht
  · exact h.raise _
  · exact (push_keeps_inv h hp hpush).setPc (by rw [target_toNat]; omega)

/-- Every meaning keeps the invariant from a post-fetch `pc`, which is at most 0x1000. -/
theorem exec_keeps_inv {s t : State} (h : s.Inv) (hp : s.pc.toNat ≤ 0x1000) {i : Instr}
    (ht : exec i s = .next t) : t.Inv := by
  cases i with
  | ret => exact execRet_keeps_inv h ht
  | call nnn => exact execCall_keeps_inv h hp ht
  | jp nnn => cases ht; exact h.setPc (by rw [target_toNat]; omega)
  | seImm x nn | sneImm x nn | seReg x y => cases ht; exact h.skipIf hp _
  | nop => cases ht; exact h
  | cls => cases ht; exact h.clearFb
  | ldImm x nn | addImm x nn | ldReg x y | orReg x y | andReg x y | xorReg x y => cases ht; exact h.writeReg x _
  | addReg x y => cases ht; exact (h.writeReg x _).writeReg flagReg _

/-- The induction step of R38 for ticks, by the four things a tick can be. -/
theorem step_keeps_inv {s t : State} (h : s.Inv) (ht : step s = .next t) : t.Inv := by
  obtain ⟨-, he⟩ | ⟨-, -, he⟩ | ⟨-, hp, -, he⟩ | ⟨-, hp, i, -, he⟩ := step_cases s
  · cases he.symm.trans ht; exact h
  · cases he.symm.trans ht; exact h.raise _
  · cases he.symm.trans ht; exact (h.advancePc (by omega)).raise _
  · have hadv := advancePc_toNat s (by omega)
    exact exec_keeps_inv (h.advancePc (by omega)) (by omega) (he.symm.trans ht)

/-! ### Transactions -/

/-- A tick always answers a next state: faults are fault entries (log 1). -/
theorem step_next (s : State) : ∃ t, step s = .next t := by
  obtain ⟨-, he⟩ | ⟨-, -, he⟩ | ⟨-, -, -, he⟩ | ⟨-, -, i, -, he⟩ := step_cases s
  · exact ⟨_, he⟩
  · exact ⟨_, he⟩
  · exact ⟨_, he⟩
  · exact he ▸ exec_next i s.advancePc

/-- Every transaction answers a next state. -/
theorem transact_next (r : Transaction) (s : State) : ∃ t, transact r s = .next t := by
  cases r with
  | tick => exact step_next s
  | reset | tickTimers | ramWrite | keyWrite | stateRead => exact ⟨_, rfl⟩

theorem transactAll_cons {r : Transaction} {s t : State} (h : transact r s = .next t) (rs : List Transaction) :
    transactAll (r :: rs) s = transactAll rs t := by
  simp only [transactAll, h]

/-- The induction step of R38 for the host's transactions. -/
theorem transact_keeps_inv {s t : State} (h : s.Inv) {r : Transaction} (ht : transact r s = .next t) : t.Inv := by
  cases r with
  | reset => cases ht; exact State.Inv.reset
  | tick => exact step_keeps_inv h ht
  | tickTimers => cases ht; exact h.countTimers
  | ramWrite a v => cases ht; exact h.writeRam a v
  | keyWrite k b => cases ht; exact h.writeKey k b
  | stateRead e => cases ht; exact h

/-! ### The settled obligations on the invariant -/

/-- Settles O41, by the four things a tick can be. -/
theorem everyStepKeepsTheInvariant : Obligations.EveryStepKeepsTheInvariant :=
  fun _ _ => step_keeps_inv

/-- Settles O42, by induction on the list of transactions. -/
theorem everyTransactionKeepsTheInvariant : Obligations.EveryTransactionKeepsTheInvariant := by
  intro rs
  induction rs with
  | nil => exact fun s h => ⟨s, rfl, h⟩
  | cons r rs ih =>
    intro s h
    obtain ⟨t, ht⟩ := transact_next r s
    rw [transactAll_cons ht]
    exact ih t (transact_keeps_inv h ht)

/-- Settles O40. -/
theorem invariantHoldsAtReset : Obligations.InvariantHoldsAtReset := State.Inv.reset

/-! ### `pc` at the end of a tick -/

/-- A skip after a fetch ends 4 or 2 bytes past the instruction, and neither increment wraps. -/
theorem skipIf_advancePc_toNat (s : State) (hp : s.pc.toNat ≤ 0x0FFE) (c : Bool) :
    (s.advancePc.skipIf c).pc.toNat = s.pc.toNat + if c then 4 else 2 := by
  have hadv := advancePc_toNat s (by omega)
  cases c with
  | false => exact hadv
  | true => exact (advancePc_toNat s.advancePc (by omega)).trans (by rw [hadv]; rfl)

/-- Settles O16, by the fetch, the decode and then the instruction. -/
theorem pcAtTheEndOfATick : Obligations.PcAtTheEndOfATick := by
  intro s hh
  refine ⟨fun hp => ⟨_, step_fetch_error s hh hp, raise_pc s _⟩, fun hp => ?_⟩
  have hadv := advancePc_toNat s (by omega)
  cases hd : decode s.wordAtPc with
  | error c => exact ⟨_, step_illegal s hh hp c hd, hadv, raise_halted _ _⟩
  | ok i =>
    have hstep := step_executes s hh hp i hd
    cases i with
    | nop | cls | ldImm | addImm | ldReg | orReg | andReg | xorReg | addReg => exact ⟨_, hstep, hadv⟩
    | seImm x nn | sneImm x nn | seReg x y =>
      refine ⟨_, hstep, (skipIf_advancePc_toNat s hp _).trans ?_⟩
      simp [readReg_congr (advancePc_x s)]
    | jp nnn => exact ⟨_, hstep, target_toNat nnn⟩
    | call nnn =>
      obtain ⟨hsp, he⟩ | ⟨t, hsp, -, he⟩ := execCall_cases nnn s.advancePc <;> rw [advancePc_sp] at hsp
      · exact ⟨_, hstep.trans he, fun _ => by omega, fun _ => ⟨hadv, raise_halted _ _⟩⟩
      · exact ⟨_, hstep.trans he, fun _ => target_toNat nnn, fun _ => by omega⟩
    | ret =>
      obtain ⟨hsp, he⟩ | ⟨k, n, hsp, -, he⟩ := execRet_cases s.advancePc <;> rw [advancePc_sp] at hsp
      · exact ⟨_, hstep.trans he, fun _ _ => by omega, fun _ => ⟨hadv, raise_halted _ _⟩⟩
      · refine ⟨_, hstep.trans he, fun j hj => ?_, fun _ => by omega⟩
        obtain rfl : j = k := Fin.ext (by omega)
        rfl

/-! ### The cells of the framebuffer -/

/-- The cell of column `c` of row `r` is bit `c` of the row `r` held (log 4). -/
theorem fbRead_fbIndex (s : State) (c : Fin 64) (r : Fin 32) : s.fbRead (fbIndex c r) = s.fb[r].getLsbD c.val := by
  simp only [State.fbRead, fbIndex, Fin.getElem_fin, show (64 * r.val + c.val) / 64 = r.val by omega,
    show (64 * r.val + c.val) % 64 = c.val by omega]

/-- A cell read by the host is its bit in 16 bits. -/
theorem readOut_fb (s : State) (k : Fin 2048) :
    readOut (.stateRead (.fb k)) s = some (if s.fbRead k then 1#16 else 0#16) := by
  cases h : s.fbRead k <;> simp [readOut, readElement, h]

/-- A cell is that of the column and row its index divides into, and of no other. -/
theorem fbIndex_eq_iff (c : Fin 64) (r : Fin 32) (k : Fin 2048) :
    fbIndex c r = k ↔ c.val = k.val % 64 ∧ r.val = k.val / 64 := by
  simp only [fbIndex, Fin.ext_iff]
  omega

/-- Settles O52: the index is the row times 64 plus the column, so division by 64 gives both back. -/
theorem everyCellIsOnePixel : Obligations.EveryCellIsOnePixel := by
  refine ⟨fun s c r => ⟨fbRead_fbIndex s c r, ?_⟩, fun _ _ => rfl, fun k => ?_⟩
  · rw [readOut_fb, fbRead_fbIndex]
  · refine ⟨⟨k.val % 64, by omega⟩, ⟨k.val / 64, by omega⟩, (fbIndex_eq_iff _ _ k).mpr ⟨rfl, rfl⟩, fun c r h => ?_⟩
    obtain ⟨hc, hr⟩ := (fbIndex_eq_iff c r k).mp h
    exact ⟨Fin.ext hc, Fin.ext hr⟩

end Sys2Proof.Machine


/-! PROOFS. The family of the encoding (spec/30_encoding.md): the fields of a word as numbers (R82), the round trip of decoder
and encoder (R81, R83, R86), the opcode map (R84, R86), the illegal words (R90), the assembler forms (R94), and the tick that
fetches an illegal word (R114, R232). -/

namespace Sys2Proof

/-! ### The fields of a word as numbers -/

theorem n3_toNat (w : Word) : (n3 w).toNat = w.toNat / 4096 := by
  have := w.isLt
  simp only [n3, BitVec.extractLsb'_toNat, Nat.shiftRight_eq_div_pow]
  omega

theorem n0_toNat (w : Word) : (n0 w).toNat = w.toNat % 16 := by
  simp only [n0, BitVec.extractLsb'_toNat, Nat.shiftRight_zero, Nat.reducePow]

theorem fieldX_val (w : Word) : (fieldX w).val = w.toNat / 256 % 16 := by
  simp only [fieldX, BitVec.val_toFin, BitVec.extractLsb'_toNat, Nat.shiftRight_eq_div_pow, Nat.reducePow]

theorem fieldY_val (w : Word) : (fieldY w).val = w.toNat / 16 % 16 := by
  simp only [fieldY, BitVec.val_toFin, BitVec.extractLsb'_toNat, Nat.shiftRight_eq_div_pow, Nat.reducePow]

theorem fieldNN_toNat (w : Word) : (fieldNN w).toNat = w.toNat % 256 := by
  simp only [fieldNN, BitVec.extractLsb'_toNat, Nat.shiftRight_zero, Nat.reducePow]

theorem fieldNNN_toNat (w : Word) : (fieldNNN w).toNat = w.toNat % 4096 := by
  simp only [fieldNNN, BitVec.extractLsb'_toNat, Nat.shiftRight_zero, Nat.reducePow]

theorem n3_eq_iff (w : Word) (c : BitVec 4) : n3 w = c ↔ w.toNat / 4096 = c.toNat := by
  rw [← BitVec.toNat_inj, n3_toNat]

theorem n0_eq_iff (w : Word) (c : BitVec 4) : n0 w = c ↔ w.toNat % 16 = c.toNat := by
  rw [← BitVec.toNat_inj, n0_toNat]

/-- Settles O4. -/
theorem operandsAreSlicesOfTheWord : Obligations.OperandsAreSlicesOfTheWord := fun w =>
  ⟨fieldX_val w, fieldY_val w, fieldNN_toNat w, fieldNNN_toNat w, (Machine.target_toNat _).trans (fieldNNN_toNat w)⟩

/-! ### The formats as numbers, and their fields (R81) -/

/-- Appended bits stand below the others, so the value is a sum. -/
theorem toNat_append_add {m n : Nat} (a : BitVec m) (b : BitVec n) : (a ++ b).toNat = 2 ^ n * a.toNat + b.toNat := by
  rw [BitVec.toNat_append, ← Nat.shiftLeft_add_eq_or_of_lt b.isLt, Nat.shiftLeft_eq, Nat.mul_comm]

theorem formatFA_toNat (op : BitVec 4) (nnn : Addr12) : (formatFA op nnn).toNat = 4096 * op.toNat + nnn.toNat :=
  toNat_append_add op nnn

theorem formatFI_toNat (op : BitVec 4) (x : RegIdx) (nn : Byte) :
    (formatFI op x nn).toNat = 4096 * op.toNat + 256 * x.val + nn.toNat := by
  refine (toNat_append_add (op ++ regBits x) nn).trans ?_
  rw [toNat_append_add, show (regBits x).toNat = x.val from rfl]
  omega

theorem formatFR_toNat (op fn : BitVec 4) (x y : RegIdx) :
    (formatFR op x y fn).toNat = 4096 * op.toNat + 256 * x.val + 16 * y.val + fn.toNat := by
  refine (toNat_append_add (op ++ regBits x) (regBits y ++ fn)).trans ?_
  rw [toNat_append_add, toNat_append_add, show (regBits x).toNat = x.val from rfl,
    show (regBits y).toNat = y.val from rfl]
  omega

/-- A word is of format FA with given parts exactly when these are its fields. -/
theorem formatFA_eq_iff (op : BitVec 4) (nnn : Addr12) (w : Word) :
    formatFA op nnn = w ↔ n3 w = op ∧ fieldNNN w = nnn := by
  rw [n3_eq_iff, ← BitVec.toNat_inj, ← BitVec.toNat_inj, formatFA_toNat, fieldNNN_toNat]
  omega

/-- A word is of format FI with given parts exactly when these are its fields. -/
theorem formatFI_eq_iff (op : BitVec 4) (x : RegIdx) (nn : Byte) (w : Word) :
    formatFI op x nn = w ↔ n3 w = op ∧ fieldX w = x ∧ fieldNN w = nn := by
  rw [n3_eq_iff, ← BitVec.toNat_inj, ← BitVec.toNat_inj, Fin.ext_iff, formatFI_toNat, fieldX_val, fieldNN_toNat]
  omega

/-- A word is of format FR with given parts exactly when these are its fields. -/
theorem formatFR_eq_iff (op fn : BitVec 4) (x y : RegIdx) (w : Word) :
    formatFR op x y fn = w ↔ n3 w = op ∧ fieldX w = x ∧ fieldY w = y ∧ n0 w = fn := by
  rw [n3_eq_iff, n0_eq_iff, ← BitVec.toNat_inj, Fin.ext_iff, Fin.ext_iff, formatFR_toNat, fieldX_val, fieldY_val]
  omega

/-! ### The round trip -/

/-- The decoder has a case for the word of every instruction. -/
theorem decodes_encode (i : Instr) : Decodes (encode i) (.ok i) := by
  generalize hw : encode i = w
  cases i with
  | nop => exact .nop hw.symm
  | cls => exact .cls hw.symm
  | ret => exact .ret hw.symm
  | jp nnn | call nnn =>
    obtain ⟨hop, rfl⟩ := (formatFA_eq_iff _ _ _).mp hw
    constructor
    exact hop
  | seImm x nn | sneImm x nn | ldImm x nn | addImm x nn =>
    obtain ⟨hop, rfl, rfl⟩ := (formatFI_eq_iff _ _ _ _).mp hw
    constructor
    exact hop
  | seReg x y | ldReg x y | orReg x y | andReg x y | xorReg x y | addReg x y =>
    obtain ⟨hop, rfl, rfl, hfn⟩ := (formatFR_eq_iff _ _ _ _ _).mp hw
    constructor
    · exact hop
    · exact hfn

theorem decode_encode (i : Instr) : decode (encode i) = .ok i := decode_eq_of_decodes (decodes_encode i)

/-- Each answer of the decoder holds the fields that make up the word. -/
theorem encode_of_decodes {w : Word} {i : Instr} (h : Decodes w (.ok i)) : encode i = w := by
  cases h with
  | nop h | cls h | ret h => exact h.symm
  | jp h | call h => exact (formatFA_eq_iff _ _ _).mpr ⟨h, rfl⟩
  | seImm h | sneImm h | ldImm h | addImm h => exact (formatFI_eq_iff _ _ _ _).mpr ⟨h, rfl, rfl⟩
  | seReg h hf | ldReg h hf | orReg h hf | andReg h hf | xorReg h hf | addReg h hf =>
    exact (formatFR_eq_iff _ _ _ _ _).mpr ⟨h, rfl, rfl, hf⟩

theorem encode_of_decode {w : Word} {i : Instr} (h : decode w = .ok i) : encode i = w :=
  encode_of_decodes (h ▸ decode_decodes w)

/-- The bytes of a word decode as the word does, and the bytes after them are left. -/
theorem decodeBytes_bytesOfWord {w : Word} {i : Instr} (h : decode w = .ok i) (rest : List Byte) :
    decodeBytes ((bytesOfWord w).1 :: (bytesOfWord w).2 :: rest) = .ok (i, rest) := by
  simp only [decodeBytes, Machine.wordOfBytes_bytesOfWord, h]

/-- Settles O5, by the fields of the instruction's format. -/
theorem decodeOfEncodeIsTheInstruction : Obligations.DecodeOfEncodeIsTheInstruction := fun i _ =>
  ⟨decode_encode i, decodeBytes_bytesOfWord (decode_encode i)⟩

/-- Settles O6, by the cases of the decoder. -/
theorem encodeOfDecodeIsTheWord : Obligations.EncodeOfDecodeIsTheWord := fun _ _ => encode_of_decode

/-! ### The opcode map (R86) -/

/-- A row without operands has one word. -/
theorem matches_exact_iff (p w : Word) : OpcodeRow.matches ⟨p, 0xFFFF#16⟩ w = true ↔ w = p := by
  simp only [OpcodeRow.matches, beq_iff_eq, show (0xFFFF#16 : Word) = BitVec.allOnes 16 from rfl, BitVec.and_allOnes]

/-- A row of format FA or FI has the words of its opcode. -/
theorem matches_opcode_iff (op : BitVec 4) (w : Word) :
    OpcodeRow.matches ⟨formatFA op 0#12, 0xF000#16⟩ w = true ↔ n3 w = op := by
  have hw : formatFA (n3 w) (fieldNNN w) = w := (formatFA_eq_iff _ _ _).mpr ⟨rfl, rfl⟩
  have hmask : w &&& 0xF000#16 = formatFA (n3 w) 0#12 := by
    rw [← formatFA_opcode (n3 w) (fieldNNN w), hw]
  rw [OpcodeRow.matches, beq_iff_eq, hmask, ← BitVec.toNat_inj, ← BitVec.toNat_inj, formatFA_toNat, formatFA_toNat]
  omega

/-- A row of format FR has the words of its opcode and function code. -/
theorem matches_opcode_function_iff (op fn : BitVec 4) (w : Word) :
    OpcodeRow.matches ⟨formatFR op 0 0 fn, 0xF00F#16⟩ w = true ↔ n3 w = op ∧ n0 w = fn := by
  have hw : formatFR (n3 w) (fieldX w) (fieldY w) (n0 w) = w := (formatFR_eq_iff _ _ _ _ _).mpr ⟨rfl, rfl, rfl, rfl⟩
  have hmask : w &&& 0xF00F#16 = formatFR (n3 w) 0 0 (n0 w) := by
    rw [← formatFR_opcode (n3 w) (n0 w) (fieldX w) (fieldY w), hw]
  rw [OpcodeRow.matches, beq_iff_eq, hmask, ← BitVec.toNat_inj, ← BitVec.toNat_inj, ← BitVec.toNat_inj, formatFR_toNat,
    formatFR_toNat]
  omega

/-- A word that matches a row of the map decodes to an instruction of that row. -/
theorem decodes_of_matches {w : Word} {r : OpcodeRow} (hr : r ∈ opcodeTable) (h : r.matches w = true) :
    ∃ i, Decodes w (.ok i) ∧ i.row = r := by
  simp only [opcodeTable, List.mem_cons, List.not_mem_nil, or_false] at hr
  obtain rfl | rfl | rfl | rfl | rfl | rfl | rfl | rfl | rfl | rfl | rfl | rfl | rfl | rfl | rfl := hr
  · exact ⟨_, .nop ((matches_exact_iff _ w).mp h), rfl⟩
  · exact ⟨_, .cls ((matches_exact_iff _ w).mp h), rfl⟩
  · exact ⟨_, .ret ((matches_exact_iff _ w).mp h), rfl⟩
  · exact ⟨_, .jp ((matches_opcode_iff _ w).mp h), rfl⟩
  · exact ⟨_, .call ((matches_opcode_iff _ w).mp h), rfl⟩
  · exact ⟨_, .seImm ((matches_opcode_iff _ w).mp h), rfl⟩
  · exact ⟨_, .sneImm ((matches_opcode_iff _ w).mp h), rfl⟩
  · obtain ⟨hop, hfn⟩ := (matches_opcode_function_iff 0x5#4 0x0#4 w).mp h; exact ⟨_, .seReg hop hfn, rfl⟩
  · exact ⟨_, .ldImm ((matches_opcode_iff _ w).mp h), rfl⟩
  · exact ⟨_, .addImm ((matches_opcode_iff _ w).mp h), rfl⟩
  · obtain ⟨hop, hfn⟩ := (matches_opcode_function_iff 0x8#4 0x0#4 w).mp h; exact ⟨_, .ldReg hop hfn, rfl⟩
  · obtain ⟨hop, hfn⟩ := (matches_opcode_function_iff 0x8#4 0x1#4 w).mp h; exact ⟨_, .orReg hop hfn, rfl⟩
  · obtain ⟨hop, hfn⟩ := (matches_opcode_function_iff 0x8#4 0x2#4 w).mp h; exact ⟨_, .andReg hop hfn, rfl⟩
  · obtain ⟨hop, hfn⟩ := (matches_opcode_function_iff 0x8#4 0x3#4 w).mp h; exact ⟨_, .xorReg hop hfn, rfl⟩
  · obtain ⟨hop, hfn⟩ := (matches_opcode_function_iff 0x8#4 0x4#4 w).mp h; exact ⟨_, .addReg hop hfn, rfl⟩

theorem decode_of_matches {w : Word} {r : OpcodeRow} (hr : r ∈ opcodeTable) (h : r.matches w = true) :
    ∃ i, decode w = .ok i ∧ i.row = r := by
  obtain ⟨i, hd, hi⟩ := decodes_of_matches hr h
  exact ⟨i, decode_eq_of_decodes hd, hi⟩

/-- The family EncodingRow for an instruction that is not known. -/
theorem encodingRow_always (i : Instr) : Laws.EncodingRow.Statement i := by
  cases i with
  | nop => exact Laws.EncodingRow.nop
  | cls => exact Laws.EncodingRow.cls
  | ret => exact Laws.EncodingRow.ret
  | jp nnn => exact Laws.EncodingRow.jp nnn
  | call nnn => exact Laws.EncodingRow.call nnn
  | seImm x nn => exact Laws.EncodingRow.seImm x nn
  | sneImm x nn => exact Laws.EncodingRow.sneImm x nn
  | seReg x y => exact Laws.EncodingRow.seReg x y
  | ldImm x nn => exact Laws.EncodingRow.ldImm x nn
  | addImm x nn => exact Laws.EncodingRow.addImm x nn
  | ldReg x y => exact Laws.EncodingRow.ldReg x y
  | orReg x y => exact Laws.EncodingRow.orReg x y
  | andReg x y => exact Laws.EncodingRow.andReg x y
  | xorReg x y => exact Laws.EncodingRow.xorReg x y
  | addReg x y => exact Laws.EncodingRow.addReg x y

/-- Settles O7: a row that a word matches is the row of the one instruction the word decodes to. -/
theorem decodeFollowsTheOpcodeMap : Obligations.DecodeFollowsTheOpcodeMap := by
  refine ⟨fun w => ?_, fun w r q hr hq hrw hqw => ?_⟩
  · cases hd : decode w with
    | ok i =>
      obtain ⟨-, hmatch, hmem⟩ := encodingRow_always i
      exact .inl ⟨i, rfl, hmem, encode_of_decode hd ▸ hmatch⟩
    | error c =>
      refine .inr ⟨⟨c, rfl⟩, fun r hr => Bool.eq_false_iff.mpr fun hrw => ?_⟩
      obtain ⟨i, hi, -⟩ := decode_of_matches hr hrw
      cases hd.symm.trans hi
  · obtain ⟨i, hi, rfl⟩ := decode_of_matches hr hrw
    obtain ⟨j, hj, rfl⟩ := decode_of_matches hq hqw
    cases hi.symm.trans hj
    rfl

/-- Settles O3. -/
theorem sampleWordsDecode : Obligations.SampleWordsDecode := by
  unfold Obligations.SampleWordsDecode
  decide

/-! ### The illegal words (R90) -/

theorem decode_zeroFamily_iff (w : Word) : decode w = .error .zeroFamily ↔
    w.toNat / 4096 = 0 ∧ w ≠ 0x0000#16 ∧ w ≠ 0x00E0#16 ∧ w ≠ 0x00EE#16 := by
  rw [show w.toNat / 4096 = 0 ↔ n3 w = 0x0#4 from (n3_eq_iff w 0x0#4).symm]
  refine ⟨fun h => ?_, fun ⟨h, h1, h2, h3⟩ => decode_eq_of_decodes (.zero h h1 h2 h3)⟩
  cases h ▸ decode_decodes w with
  | zero h h1 h2 h3 => exact ⟨h, h1, h2, h3⟩

theorem decode_fiveFamily_iff (w : Word) : decode w = .error .fiveFamily ↔
    w.toNat / 4096 = 5 ∧ w.toNat % 16 ≠ 0 := by
  rw [show w.toNat / 4096 = 5 ↔ n3 w = 0x5#4 from (n3_eq_iff w 0x5#4).symm,
    show w.toNat % 16 ≠ 0 ↔ n0 w ≠ 0x0#4 from (n0_eq_iff w 0x0#4).not.symm]
  refine ⟨fun h => ?_, fun ⟨h, hf⟩ => decode_eq_of_decodes (.five h hf)⟩
  cases h ▸ decode_decodes w with
  | five h hf => exact ⟨h, hf⟩

theorem decode_eightFamily_iff (w : Word) : decode w = .error .eightFamily ↔
    w.toNat / 4096 = 8 ∧ 5 ≤ w.toNat % 16 := by
  rw [show w.toNat / 4096 = 8 ↔ n3 w = 0x8#4 from (n3_eq_iff w 0x8#4).symm, ← n0_toNat]
  refine ⟨fun h => ?_, fun ⟨h, hf⟩ => decode_eq_of_decodes (.eight h hf)⟩
  cases h ▸ decode_decodes w with
  | eight h hf => exact ⟨h, hf⟩

theorem decode_highFamily_iff (w : Word) : decode w = .error .highFamily ↔ 9 ≤ w.toNat / 4096 := by
  rw [← n3_toNat]
  refine ⟨fun h => ?_, fun h => decode_eq_of_decodes (.high h)⟩
  cases h ▸ decode_decodes w with
  | high h => exact h

/-- Settles O8, class by class. -/
theorem illegalWordsAreTheFourClasses : Obligations.IllegalWordsAreTheFourClasses := fun w =>
  ⟨decode_zeroFamily_iff w, decode_fiveFamily_iff w, decode_eightFamily_iff w, decode_highFamily_iff w⟩

/-! ### The assembler forms (R94) -/

theorem fits_iff (o : Operand) : o.fits = true ↔ o.value < 2 ^ o.field.width := decide_eq_true_iff

/-- The range of R94 for a form with an address. -/
theorem wellFormed_iff_of_address {l : Line} {a : Nat} (hl : l.operands = [⟨.nnn, a⟩]) :
    l.wellFormed = true ↔ a < 4096 := by
  simp [Line.wellFormed, hl, fits_iff, Field.width]

/-- The ranges of R94 for a form with a register and a byte. -/
theorem wellFormed_iff_of_immediate {l : Line} {x b : Nat} (hl : l.operands = [⟨.x, x⟩, ⟨.nn, b⟩]) :
    l.wellFormed = true ↔ x < 16 ∧ b < 256 := by
  simp [Line.wellFormed, hl, fits_iff, Field.width]

/-- The ranges of R94 for a form with two registers. -/
theorem wellFormed_iff_of_registers {l : Line} {x y : Nat} (hl : l.operands = [⟨.x, x⟩, ⟨.y, y⟩]) :
    l.wellFormed = true ↔ x < 16 ∧ y < 16 := by
  simp [Line.wellFormed, hl, fits_iff, Field.width]

theorem assemble_encode_of_wellFormed {l : Line} {w : Word} (hl : l.wellFormed = true) (hw : encode l.instr = w) :
    l.assemble.map encode = some w := by
  rw [Line.assemble, if_pos hl, Option.map_some, hw]

theorem assemble_eq_none_of_address {l : Line} {a : Nat} (hl : l.operands = [⟨.nnn, a⟩]) (h : 4096 ≤ a) :
    l.assemble = none :=
  if_neg fun hw => by have := (wellFormed_iff_of_address hl).mp hw; omega

theorem assemble_eq_none_of_immediate {l : Line} {x b : Nat} (hl : l.operands = [⟨.x, x⟩, ⟨.nn, b⟩])
    (h : 16 ≤ x ∨ 256 ≤ b) : l.assemble = none :=
  if_neg fun hw => by have := (wellFormed_iff_of_immediate hl).mp hw; omega

theorem assemble_eq_none_of_registers {l : Line} {x y : Nat} (hl : l.operands = [⟨.x, x⟩, ⟨.y, y⟩])
    (h : 16 ≤ x ∨ 16 ≤ y) : l.assemble = none :=
  if_neg fun hw => by have := (wellFormed_iff_of_registers hl).mp hw; omega

/-- A form of format FA with its address in range assembles to its opcode with the address below it. -/
theorem assemble_address (op : BitVec 4) {l : Line} {a : Nat} (hl : l.operands = [⟨.nnn, a⟩])
    (he : encode l.instr = formatFA op (BitVec.ofNat 12 a)) (ha : a < 4096) :
    l.assemble.map encode = some (BitVec.ofNat 16 (4096 * op.toNat + a)) := by
  refine assemble_encode_of_wellFormed ((wellFormed_iff_of_address hl).mpr ha) (he.trans (BitVec.eq_of_toNat_eq ?_))
  have := op.isLt
  rw [formatFA_toNat, BitVec.toNat_ofNat, BitVec.toNat_ofNat]
  omega

/-- A form of format FI with its numbers in range assembles to its opcode with them in their digits. -/
theorem assemble_immediate (op : BitVec 4) {l : Line} {x b : Nat} (hl : l.operands = [⟨.x, x⟩, ⟨.nn, b⟩])
    (he : encode l.instr = formatFI op (Fin.ofNat 16 x) (BitVec.ofNat 8 b)) (hx : x < 16) (hb : b < 256) :
    l.assemble.map encode = some (BitVec.ofNat 16 (4096 * op.toNat + 256 * x + b)) := by
  refine assemble_encode_of_wellFormed ((wellFormed_iff_of_immediate hl).mpr ⟨hx, hb⟩)
    (he.trans (BitVec.eq_of_toNat_eq ?_))
  have := op.isLt
  rw [formatFI_toNat, BitVec.toNat_ofNat, BitVec.toNat_ofNat, Fin.val_ofNat]
  omega

/-- A form of format FR with its registers in range assembles to its opcode and function code with them between. -/
theorem assemble_registers (op fn : BitVec 4) {l : Line} {x y : Nat} (hl : l.operands = [⟨.x, x⟩, ⟨.y, y⟩])
    (he : encode l.instr = formatFR op (Fin.ofNat 16 x) (Fin.ofNat 16 y) fn) (hx : x < 16) (hy : y < 16) :
    l.assemble.map encode = some (BitVec.ofNat 16 (4096 * op.toNat + fn.toNat + 256 * x + 16 * y)) := by
  refine assemble_encode_of_wellFormed ((wellFormed_iff_of_registers hl).mpr ⟨hx, hy⟩)
    (he.trans (BitVec.eq_of_toNat_eq ?_))
  have := op.isLt
  rw [formatFR_toNat, BitVec.toNat_ofNat, Fin.val_ofNat, Fin.val_ofNat]
  omega

/-- Settles O9, each form by its format. -/
theorem linesAssembleToTheirWords : Obligations.LinesAssembleToTheirWords := by
  refine ⟨fun x y b a hx hy hb ha => ⟨rfl, rfl, rfl, assemble_address 0x1#4 rfl rfl ha, assemble_address 0x2#4 rfl rfl ha,
    assemble_immediate 0x3#4 rfl rfl hx hb, assemble_immediate 0x4#4 rfl rfl hx hb,
    assemble_registers 0x5#4 0x0#4 rfl rfl hx hy, assemble_immediate 0x6#4 rfl rfl hx hb,
    assemble_immediate 0x7#4 rfl rfl hx hb, assemble_registers 0x8#4 0x0#4 rfl rfl hx hy,
    assemble_registers 0x8#4 0x1#4 rfl rfl hx hy, assemble_registers 0x8#4 0x2#4 rfl rfl hx hy,
    assemble_registers 0x8#4 0x3#4 rfl rfl hx hy, assemble_registers 0x8#4 0x4#4 rfl rfl hx hy⟩,
    fun x y b a => ⟨fun ha => ?_, fun hxb => ?_, fun hxy => ?_⟩⟩
  · exact ⟨assemble_eq_none_of_address rfl ha, assemble_eq_none_of_address rfl ha⟩
  · have none_of {l : Line} (hl : l.operands = [⟨.x, x⟩, ⟨.nn, b⟩]) := assemble_eq_none_of_immediate hl hxb
    exact ⟨none_of rfl, none_of rfl, none_of rfl, none_of rfl⟩
  · have none_of {l : Line} (hl : l.operands = [⟨.x, x⟩, ⟨.y, y⟩]) := assemble_eq_none_of_registers hl hxy
    exact ⟨none_of rfl, none_of rfl, none_of rfl, none_of rfl, none_of rfl, none_of rfl⟩

/-! ### A tick that fetches an illegal word -/

namespace Machine

/-- The frame of the fault of decode: the fetch moved `pc`, the fault entry set the status, and nothing else differs
(spec/60_exceptions.md R237). -/
theorem raise_advancePc_frame (s : State) (f : Fault) :
    SameRegs s (s.advancePc.raise f) ∧ SameStack s (s.advancePc.raise f) ∧ SameFb s (s.advancePc.raise f) ∧
      SameOutside s (s.advancePc.raise f) :=
  ⟨fun _ => rfl, ⟨rfl, fun _ => rfl⟩, fun _ => rfl, rfl, rfl, rfl, fun _ => rfl, fun _ => rfl⟩

/-- Settles O13: each class of R90 is an error of the decoder, and the tick then raises after its fetch. -/
theorem illegalWordHalts : Obligations.IllegalWordHalts := by
  intro s hh hp hclass
  have hillegal : ∃ c, decode s.wordAtPc = .error c := by
    obtain ⟨hn3, h0, hE0, hEE⟩ | hfive | height | hhigh := hclass
    · have ne_of {v : Word} (hv : s.wordAtPc.toNat ≠ v.toNat) : s.wordAtPc ≠ v := fun e => hv (congrArg _ e)
      exact ⟨_, (decode_zeroFamily_iff _).mpr ⟨hn3, ne_of h0, ne_of hE0, ne_of hEE⟩⟩
    · exact ⟨_, (decode_fiveFamily_iff _).mpr hfive⟩
    · exact ⟨_, (decode_eightFamily_iff _).mpr height⟩
    · exact ⟨_, (decode_highFamily_iff _).mpr hhigh⟩
  obtain ⟨c, hc⟩ := hillegal
  exact ⟨_, step_illegal s hh hp c hc, rfl, rfl, advancePc_toNat s (by omega), raise_advancePc_frame s _⟩

end Machine

end Sys2Proof

/-! PROOFS. The family of the step cycle (spec/40_step_cycle.md): fetch and its fault (R112, R113), the tick of a halted block
(R111) and of one that runs an instruction (R115), what a tick may change (R116) and depends on (R117), and the jump to itself
(R118). -/

namespace Sys2Proof.Machine

/-! ### Fetch, and the ticks that the gate or the fetch ends -/

theorem wordOfBytes_toNat (hi lo : Byte) : (wordOfBytes hi lo).toNat = 256 * hi.toNat + lo.toNat :=
  toNat_append_add hi lo

/-- The frame of the fetch increment (spec/40_step_cycle.md R112). -/
theorem advancePc_sameButPc (s : State) : SameButPc s s.advancePc :=
  ⟨fun _ => rfl, ⟨rfl, fun _ => rfl⟩, fun _ => rfl, ⟨rfl, rfl, rfl, fun _ => rfl, fun _ => rfl⟩, rfl, rfl⟩

theorem raise_sameOutside (s : State) (f : Fault) : SameOutside s (s.raise f) :=
  ⟨rfl, rfl, rfl, fun _ => rfl, fun _ => rfl⟩

/-- The frame of fault entry (spec/60_exceptions.md R236). -/
theorem raise_frame (s : State) (f : Fault) :
    SameRegs s (s.raise f) ∧ SameStack s (s.raise f) ∧ SameFb s (s.raise f) ∧ SameOutside s (s.raise f) :=
  ⟨fun _ => rfl, ⟨rfl, fun _ => rfl⟩, fun _ => rfl, raise_sameOutside s f⟩

/-- Settles O10. -/
theorem fetchReadsTwoBytesHighFirst : Obligations.FetchReadsTwoBytesHighFirst := fun s =>
  ⟨fun hp => ⟨s.wordAtPc, s.advancePc, fetch_ok s hp, wordOfBytes_toNat _ _, advancePc_toNat s (by omega),
    advancePc_sameButPc s⟩, fetch_error s⟩

/-- Settles O11: the operands are well formed always, so the premise that they are is not needed. -/
theorem stepRunsTheDecodedInstruction : Obligations.StepRunsTheDecodedInstruction :=
  fun s i hh hp hd _ => step_executes s hh hp i hd

/-- Settles O12. -/
theorem fetchOutsideRamHalts : Obligations.FetchOutsideRamHalts := fun s hh hp =>
  ⟨_, step_fetch_error s hh hp, raise_halted s _, rfl, raise_pc s _, raise_frame s _⟩

/-- Settles O14. -/
theorem haltedTickChangesNothing : Obligations.HaltedTickChangesNothing := step_halted

/-- Settles O15, by the four things a tick can be. -/
theorem everyTickAnswersNext : Obligations.EveryTickAnswersNext := step_next

/-! ### The jump to itself -/

/-- Below 4096 the word `0x1000 | a` is that of a jump to `a`. -/
theorem jumpWord_eq_encode {a : Addr} (ha : a.toNat < 4096) : 0x1000#16 ||| a = encode (.jp (a.setWidth 12)) := by
  refine BitVec.eq_of_toNat_eq ((Nat.two_pow_add_eq_or_of_lt (i := 12) ha 1).symm.trans ?_)
  rw [encode, formatFA_toNat, BitVec.toNat_setWidth, Nat.mod_eq_of_lt ha]
  rfl

theorem target_setWidth {a : Addr} (ha : a.toNat < 4096) : target (a.setWidth 12) = a :=
  BitVec.eq_of_toNat_eq ((target_toNat _).trans ((BitVec.toNat_setWidth 12 a).trans (Nat.mod_eq_of_lt ha)))

/-- Settles O21: the word at `pc` is that of a jump to `pc`, which undoes the fetch increment. -/
theorem jumpToItselfIsAFixedPoint : Obligations.JumpToItselfIsAFixedPoint := by
  rintro s ⟨hrun, hp, hw⟩
  have ha : s.pc.toNat < 4096 := by omega
  have hd : decode s.wordAtPc = .ok (.jp (s.pc.setWidth 12)) := by
    rw [hw, jumpWord_eq_encode ha, decode_encode]
  calc step s = .next (s.advancePc.setPc (target (s.pc.setWidth 12))) := step_executes s hrun hp _ hd
    _ = .next (s.advancePc.setPc s.pc) := by rw [target_setWidth ha]
    _ = .next s := rfl

/-! ### What a meaning leaves -/

/-- The states that the meaning of the word `w` can leave from `s`, the state after the fetch: `pc` may be anywhere, and each
other element that may differ is written out (spec/40_step_cycle.md R115, R116). -/
inductive Executed (w : Word) (s : State) : State → Prop
  | raised (f : Fault) : Executed w s (s.raise f)
  | moved (v : Addr) : Executed w s (s.setPc v)
  | wrote (hw : 0x6000 ≤ w.toNat) (v : Byte) : Executed w s (s.writeReg (fieldX w) v)
  | added (hw : w &&& 0xF00F#16 = 0x8004#16) (v c : Byte) :
      Executed w s ((s.writeReg (fieldX w) v).writeReg flagReg c)
  | called (hw : w &&& 0xF000#16 = 0x2000#16) (st : Vector Addr 16) (n : Fin 17) (v : Addr) (hn : n.val = s.sp.val + 1)
      (hst : ∀ k : Fin 16, k.val ≠ s.sp.val → st[k] = s.stack[k]) :
      Executed w s (State.setPc { s with stack := st, sp := n } v)
  | returned (hw : w = 0x00EE#16) (n : Fin 17) (v : Addr) (hn : n.val + 1 = s.sp.val) :
      Executed w s (State.setPc { s with sp := n } v)
  | cleared (hw : w = 0x00E0#16) : Executed w s s.clearFb

/-- A push that succeeds, with what it did (spec/42_control_flow.md R140). -/
theorem push_ok {s t : State} {v : Addr} (h : s.push v = .ok t) :
    s.sp.val < 16 ∧ t.sp.val = s.sp.val + 1 ∧
      (∀ k : Fin 16, t.stack[k] = if k.val = s.sp.val then v else s.stack[k]) ∧
      t = { s with stack := t.stack, sp := t.sp } := by
  obtain ⟨-, herr⟩ | ⟨u, hu, hframe⟩ := push_cases s v
  · cases herr.symm.trans h
  · cases hu.symm.trans h
    exact hframe

theorem skipIf_eq_setPc (s : State) (c : Bool) : ∃ v, s.skipIf c = s.setPc v := by
  cases c with
  | false => exact ⟨s.pc, rfl⟩
  | true => exact ⟨s.pc + 2#16, rfl⟩

/-- A word whose opcode nibble is at least 6 is one of the families from 6. -/
theorem word_ge_of_n3 {w : Word} {c : BitVec 4} (h : n3 w = c) (hc : 6 ≤ c.toNat) : 0x6000 ≤ w.toNat := by
  have := (n3_eq_iff w c).mp h
  omega

theorem ge_of_addReg_word {w : Word} (hw : w &&& 0xF00F#16 = 0x8004#16) : 0x6000 ≤ w.toNat :=
  word_ge_of_n3 ((matches_opcode_function_iff 0x8#4 0x4#4 w).mp (beq_iff_eq.mpr hw)).1 (by decide)

/-- Every meaning leaves one of the states of `Executed`, by the word that decodes to it. -/
theorem exec_executed {w : Word} {i : Instr} {s t : State} (hd : Decodes w (.ok i)) (ht : exec i s = .next t) :
    Executed w s t := by
  cases hd with
  | nop => cases ht; exact .moved s.pc
  | jp => cases ht; exact .moved _
  | seImm | sneImm | seReg =>
    cases ht
    obtain ⟨v, hv⟩ := skipIf_eq_setPc s _
    exact hv ▸ .moved v
  | ldImm h | addImm h | ldReg h | orReg h | andReg h | xorReg h =>
    cases ht; exact .wrote (word_ge_of_n3 h (by decide)) _
  | addReg h hf =>
    cases ht; exact .added (beq_iff_eq.mp ((matches_opcode_function_iff 0x8#4 0x4#4 w).mpr ⟨h, hf⟩)) _ _
  | cls h => cases ht; exact .cleared h
  | ret h =>
    obtain ⟨-, he⟩ | ⟨k, n, hsp, hn, he⟩ := execRet_cases s <;> cases he.symm.trans ht
    · exact .raised _
    · exact .returned h n _ (by omega)
  | call h =>
    obtain ⟨-, he⟩ | ⟨u, -, hpush, he⟩ := execCall_cases (fieldNNN w) s <;> cases he.symm.trans ht
    · exact .raised _
    · obtain ⟨-, hsp, hstack, hu⟩ := push_ok hpush
      rw [hu]
      exact .called (beq_iff_eq.mp ((matches_opcode_iff 0x2#4 w).mpr h)) _ _ _ hsp
        fun k hk => (hstack k).trans (if_neg hk)

namespace Executed

variable {w : Word} {s t : State}

/-- No meaning changes RAM, `i_reg`, the timers or the keys. -/
theorem sameOutside (h : Executed w s t) : SameOutside s t := by
  cases h <;> exact ⟨rfl, rfl, rfl, fun _ => rfl, fun _ => rfl⟩

/-- A meaning that leaves the block running has raised nothing. -/
theorem sameStatus (h : Executed w s t) (hrun : t.halted = false) : SameStatus s t := by
  cases h with
  | raised => cases hrun
  | moved | wrote | added | called | returned | cleared => exact ⟨rfl, rfl⟩

end Executed

theorem writeReg_sameRegsExcept (s : State) (i : RegIdx) (v : Byte) : SameRegsExcept [i] s (s.writeReg i v) := by
  intro j hj
  rw [readReg_writeReg, if_neg (List.ne_of_not_mem_cons hj)]

theorem SameRegsExcept.trans {is js : List RegIdx} {s t u : State} (hst : SameRegsExcept is s t)
    (htu : SameRegsExcept js t u) : SameRegsExcept (is ++ js) s u := by
  intro j hj
  rw [List.mem_append, not_or] at hj
  exact (htu j hj.2).trans (hst j hj.1)

/-- Settles O19, by the four things a tick can be and then by what its instruction can leave. -/
theorem tickChangesAtMostWhatR116Lists : Obligations.TickChangesAtMostWhatR116Lists := by
  intro s t ht
  obtain ⟨hh, he⟩ | ⟨-, -, he⟩ | ⟨-, -, -, he⟩ | ⟨-, -, i, hd, he⟩ := step_cases s
  · cases he.symm.trans ht
    exact ⟨⟨rfl, rfl, rfl, fun _ => rfl, fun _ => rfl⟩, fun hrun => by cases hh.symm.trans hrun⟩
  · cases he.symm.trans ht
    exact ⟨raise_sameOutside s _, fun _ hrun => by cases hrun⟩
  · cases he.symm.trans ht
    exact ⟨raise_sameOutside s.advancePc _, fun _ hrun => by cases hrun⟩
  · have hex : Executed s.wordAtPc s.advancePc t := exec_executed (hd ▸ decode_decodes _) (he.symm.trans ht)
    refine ⟨hex.sameOutside, fun _ hrun => ⟨hex.sameStatus hrun, ?_⟩⟩
    cases hex with
    | raised => cases hrun
    | moved v =>
      have hregs : SameRegs s (s.advancePc.setPc v) := fun _ => rfl
      exact .inl ⟨fun j _ => hregs j, ⟨rfl, fun _ => rfl⟩, fun _ => rfl, fun _ j _ => hregs j, fun _ => hregs⟩
    | wrote hw v =>
      have hregs := writeReg_sameRegsExcept s.advancePc (fieldX s.wordAtPc) v
      exact .inl ⟨fun j hj => hregs j fun hmem => hj (List.mem_append_left [15] hmem), ⟨rfl, fun _ => rfl⟩, fun _ => rfl,
        fun _ => hregs, fun hlt => by omega⟩
    | added hw v c =>
      have hge : 0x6000 ≤ s.wordAtPc.toNat := ge_of_addReg_word hw
      have hregs := (writeReg_sameRegsExcept s.advancePc (fieldX s.wordAtPc) v).trans
        (writeReg_sameRegsExcept _ flagReg c)
      exact .inl ⟨hregs, ⟨rfl, fun _ => rfl⟩, fun _ => rfl, fun hne => absurd hw hne, fun hlt => by omega⟩
    | called hw st n v hn hst => exact .inr (.inl ⟨hw, fun _ => rfl, fun _ => rfl, hn, hst⟩)
    | returned hw n v hn => exact .inr (.inr (.inl ⟨hw, fun _ => rfl, fun _ => rfl, hn, fun _ => rfl⟩))
    | cleared hw => exact .inr (.inr (.inr ⟨hw, fun _ => rfl, ⟨rfl, fun _ => rfl⟩, fbRead_clearFb _⟩))

/-! ### What a tick depends on -/

namespace AgreeOnCore

variable {s s' : State}

/-- States that agree on the core have the same word at `pc`. -/
theorem wordAtPc (h : AgreeOnCore s s') : s'.wordAtPc = s.wordAtPc := by
  simp only [State.wordAtPc, h.pc, h.ram _]

theorem halted (h : AgreeOnCore s s') : s'.halted = s.halted := h.status.1

theorem setPc (h : AgreeOnCore s s') {v v' : Addr} (hv : v' = v) : AgreeOnCore (s.setPc v) (s'.setPc v') :=
  { h with pc := hv }

theorem advancePc (h : AgreeOnCore s s') : AgreeOnCore s.advancePc s'.advancePc :=
  h.setPc (by rw [h.pc])

theorem skipIf (h : AgreeOnCore s s') {c c' : Bool} (hc : c' = c) : AgreeOnCore (s.skipIf c) (s'.skipIf c') := by
  subst hc
  cases c' with
  | false => exact h
  | true => exact h.advancePc

theorem writeReg (h : AgreeOnCore s s') (i : RegIdx) {v v' : Byte} (hv : v' = v) :
    AgreeOnCore (s.writeReg i v) (s'.writeReg i v') :=
  { h with regs := fun j => by rw [readReg_writeReg, readReg_writeReg, hv, h.regs] }

theorem raise (h : AgreeOnCore s s') (f : Fault) : AgreeOnCore (s.raise f) (s'.raise f) :=
  { h with status := ⟨rfl, rfl⟩ }

theorem clearFb (h : AgreeOnCore s s') : AgreeOnCore s.clearFb s'.clearFb := { h with }

/-- Counting entries off keeps the agreement: fewer are live. -/
theorem lowerSp (h : AgreeOnCore s s') {n n' : Fin 17} (hn : n.val ≤ s.sp.val) (hn' : n' = n) :
    AgreeOnCore { s with sp := n } { s' with sp := n' } :=
  { h with sp := hn', live := fun k hk => h.live k (lt_of_lt_of_le hk hn) }

/-- After a push the entry above the old live ones is the value pushed, in both states. -/
theorem push (h : AgreeOnCore s s') {t t' : State} {v v' : Addr} (hv : v' = v) (ht : s.push v = .ok t)
    (ht' : s'.push v' = .ok t') : AgreeOnCore t t' := by
  obtain ⟨-, hsp, hstack, hframe⟩ := push_ok ht
  obtain ⟨-, hsp', hstack', hframe'⟩ := push_ok ht'
  have hold : s'.sp.val = s.sp.val := congrArg _ h.sp
  rw [hframe, hframe']
  refine { h with sp := Fin.ext (by rw [hsp', hsp, hold]), live := fun k (hk : k.val < t.sp.val) => ?_ }
  refine (hstack' k).trans (.trans ?_ (hstack k).symm)
  rw [hold, hv]
  split
  · rfl
  · exact h.live k (by omega)

theorem execRet (h : AgreeOnCore s s') {t t' : State} (ht : execRet s = .next t) (ht' : execRet s' = .next t') :
    AgreeOnCore t t' := by
  have hold : s'.sp.val = s.sp.val := congrArg _ h.sp
  obtain ⟨hsp, he⟩ | ⟨k, n, hsp, hn, he⟩ := execRet_cases s <;> cases he.symm.trans ht <;>
    obtain ⟨hsp', he'⟩ | ⟨k', n', hsp', hn', he'⟩ := execRet_cases s' <;> cases he'.symm.trans ht'
  · exact h.raise _
  · omega
  · omega
  · obtain rfl : k' = k := Fin.ext (by omega)
    exact (h.lowerSp (by omega) (Fin.ext (by omega))).setPc (h.live k' (by omega))

theorem execCall (h : AgreeOnCore s s') {nnn : Addr12} {t t' : State} (ht : execCall nnn s = .next t)
    (ht' : execCall nnn s' = .next t') : AgreeOnCore t t' := by
  have hold : s'.sp.val = s.sp.val := congrArg _ h.sp
  obtain ⟨hsp, he⟩ | ⟨u, hsp, hpush, he⟩ := execCall_cases nnn s <;> cases he.symm.trans ht <;>
    obtain ⟨hsp', he'⟩ | ⟨u', hsp', hpush', he'⟩ := execCall_cases nnn s' <;> cases he'.symm.trans ht'
  · exact h.raise _
  · omega
  · omega
  · exact (h.push h.pc hpush hpush').setPc rfl

/-- Every meaning keeps the agreement: what it writes it has read from the core. -/
theorem exec (h : AgreeOnCore s s') {i : Instr} {t t' : State} (ht : exec i s = .next t)
    (ht' : exec i s' = .next t') : AgreeOnCore t t' := by
  cases i with
  | ret => exact h.execRet ht ht'
  | call nnn => exact h.execCall ht ht'
  | nop => cases ht; cases ht'; exact h
  | cls => cases ht; cases ht'; exact h.clearFb
  | jp nnn => cases ht; cases ht'; exact h.setPc rfl
  | seImm x nn | sneImm x nn | seReg x y => cases ht; cases ht'; exact h.skipIf (by simp only [h.regs _])
  | ldImm x nn | addImm x nn | ldReg x y | orReg x y | andReg x y | xorReg x y =>
    cases ht; cases ht'; exact h.writeReg x (by simp only [h.regs _])
  | addReg x y =>
    cases ht; cases ht'
    exact (h.writeReg x (by simp only [h.regs _])).writeReg flagReg (by simp only [h.regs _])

end AgreeOnCore

/-- Settles O20: the gate, the fetch, the decode and the meaning each read the core alone. -/
theorem tickDependsOnTheCoreAlone : Obligations.TickDependsOnTheCoreAlone := by
  intro s s' t h ht
  obtain ⟨hh, he⟩ | ⟨hh, hp, he⟩ | ⟨hh, hp, ⟨c, hd⟩, he⟩ | ⟨hh, hp, i, hd, he⟩ := step_cases s
  · cases he.symm.trans ht
    exact ⟨s', step_halted s' (h.halted.trans hh), h⟩
  · cases he.symm.trans ht
    exact ⟨_, step_fetch_error s' (h.halted.trans hh) (h.pc ▸ hp), h.raise _⟩
  · cases he.symm.trans ht
    exact ⟨_, step_illegal s' (h.halted.trans hh) (h.pc ▸ hp) c (h.wordAtPc ▸ hd), h.advancePc.raise _⟩
  · obtain ⟨t', ht'⟩ := exec_next i s'.advancePc
    have hstep := step_executes s' (h.halted.trans hh) (h.pc ▸ hp) i (h.wordAtPc ▸ hd)
    exact ⟨t', hstep.trans ht', h.advancePc.exec (he.symm.trans ht) ht'⟩

end Sys2Proof.Machine

/-! PROOFS. The family of the system and display instructions (spec/41_system_display.md): `NOP` (R130) and `CLS` (R131). -/

namespace Sys2Proof

/-- A word decodes to an instruction exactly when it is the instruction's word (spec/30_encoding.md R83). -/
theorem decode_eq_ok_iff (w : Word) (i : Instr) : decode w = .ok i ↔ w = encode i :=
  ⟨fun h => (encode_of_decode h).symm, fun h => h ▸ decode_encode i⟩

namespace Machine

theorem exec_nop (s : State) : exec .nop s = .next s := rfl

theorem exec_cls (s : State) : exec .cls s = .next s.clearFb := rfl

theorem sameButPc_refl (s : State) : SameButPc s s :=
  ⟨fun _ => rfl, ⟨rfl, fun _ => rfl⟩, fun _ => rfl, ⟨rfl, rfl, rfl, fun _ => rfl, fun _ => rfl⟩, rfl, rfl⟩

/-- The frame of the framebuffer clear (spec/41_system_display.md R131). -/
theorem clearFb_frame (s : State) :
    SameRegs s s.clearFb ∧ SameStack s s.clearFb ∧ SameOutside s s.clearFb ∧ SameStatus s s.clearFb :=
  ⟨fun _ => rfl, ⟨rfl, fun _ => rfl⟩, ⟨rfl, rfl, rfl, fun _ => rfl, fun _ => rfl⟩, rfl, rfl⟩

/-- Settles O22: decoding to `NOP` is being its word, and a word of the 0 family that is none of its three rows is illegal. -/
theorem nopChangesNothing : Obligations.NopChangesNothing := by
  refine ⟨fun w => decode_eq_ok_iff w .nop, fun w hlt hnop hcls hret => ?_,
    fun s => ⟨s, exec_nop s, rfl, sameButPc_refl s⟩⟩
  have hfamily : w.toNat / 4096 = 0 := by omega
  exact (decode_zeroFamily_iff w).mpr ⟨hfamily, hnop, hcls, hret⟩

/-- Settles O23: decoding to `CLS` is being its word, and its meaning is the framebuffer clear. -/
theorem clsClearsEveryCell : Obligations.ClsClearsEveryCell :=
  ⟨fun w => decode_eq_ok_iff w .cls, fun s => ⟨s.clearFb, exec_cls s, fbRead_clearFb s, clearFb_pc s, clearFb_frame s⟩⟩

end Machine

end Sys2Proof

/-! PROOFS. The family of control flow (spec/42_control_flow.md): `RET` (R142), `JP` (R143), `CALL` (R144) and the law of call and
return (R145). -/

namespace Sys2Proof

/-- A word decodes to an instruction of format FA exactly when its opcode and its address are the instruction's
(spec/30_encoding.md R81, R86). -/
theorem decode_formatFA_iff {i : Instr} {op : BitVec 4} {nnn : Addr12} (hi : encode i = formatFA op nnn) (w : Word) :
    decode w = .ok i ↔ w &&& 0xF000#16 = formatFA op 0#12 ∧ fieldNNN w = nnn := by
  rw [decode_eq_ok_iff, hi, eq_comm, formatFA_eq_iff, ← matches_opcode_iff, OpcodeRow.matches, beq_iff_eq]

namespace Machine

/-! ### The meanings, by what the stack holds -/

theorem exec_jp (nnn : Addr12) (s : State) : exec (.jp nnn) s = .next (s.setPc (target nnn)) := rfl

/-- `RET` with the stack not empty (spec/42_control_flow.md R141, R142). -/
theorem exec_ret_of_sp_eq_succ {s : State} {k : Fin 16} (hsp : s.sp.val = k.val + 1) :
    exec .ret s = .next (State.setPc { s with sp := k.castSucc } s.stack[k]) := by
  obtain ⟨hempty, -⟩ | ⟨j, n, hj, hn, he⟩ := execRet_cases s
  · omega
  · obtain rfl : j = k := Fin.ext (by omega)
    obtain rfl : n = j.castSucc := Fin.ext hn
    exact he

/-- `RET` with the stack empty (spec/42_control_flow.md R142, spec/60_exceptions.md R234). -/
theorem exec_ret_of_empty {s : State} (hsp : s.sp.val = 0) : exec .ret s = .next (s.raise .stackUnderflow) := by
  obtain ⟨-, he⟩ | ⟨k, n, hk, -, -⟩ := execRet_cases s
  · exact he
  · omega

/-- `CALL` with the stack not full: the stack it leaves holds the post-fetch `pc` at the old `sp`
(spec/42_control_flow.md R140, R144). -/
theorem exec_call_of_sp_lt (nnn : Addr12) {s : State} (hsp : s.sp.val < 16) :
    ∃ (st : Vector Addr 16) (n : Fin 17), n.val = s.sp.val + 1 ∧
      (∀ k : Fin 16, st[k] = if k.val = s.sp.val then s.pc else s.stack[k]) ∧
      exec (.call nnn) s = .next (State.setPc { s with stack := st, sp := n } (target nnn)) := by
  obtain ⟨hfull, -⟩ | ⟨t, -, hpush, he⟩ := execCall_cases nnn s
  · omega
  · obtain ⟨-, hn, hst, hframe⟩ := push_ok hpush
    exact ⟨t.stack, t.sp, hn, hst, hframe ▸ he⟩

/-- `CALL` with the stack full (spec/42_control_flow.md R144, spec/60_exceptions.md R233). -/
theorem exec_call_of_full (nnn : Addr12) {s : State} (hsp : s.sp.val = 16) :
    exec (.call nnn) s = .next (s.raise .stackOverflow) := by
  obtain ⟨-, he⟩ | ⟨t, hlt, -, -⟩ := execCall_cases nnn s
  · exact he
  · omega

/-! ### What they leave unchanged -/

theorem setPc_sameButPc (s : State) (v : Addr) : SameButPc s (s.setPc v) :=
  ⟨fun _ => rfl, ⟨rfl, fun _ => rfl⟩, fun _ => rfl, ⟨rfl, rfl, rfl, fun _ => rfl, fun _ => rfl⟩, rfl, rfl⟩

/-- The frame of a transfer of control that uses the stack (spec/42_control_flow.md R142, R144). -/
theorem setPc_withStack_frame (s : State) (st : Vector Addr 16) (n : Fin 17) (v : Addr) :
    SameRegs s (State.setPc { s with stack := st, sp := n } v) ∧ SameFb s (State.setPc { s with stack := st, sp := n } v) ∧
      SameOutside s (State.setPc { s with stack := st, sp := n } v) ∧
      SameStatus s (State.setPc { s with stack := st, sp := n } v) :=
  ⟨fun _ => rfl, fun _ => rfl, ⟨rfl, rfl, rfl, fun _ => rfl, fun _ => rfl⟩, rfl, rfl⟩

/-! ### The settled obligations on control flow -/

/-- Settles O24: the pop lowers `sp` to the index of the entry it returns, and erases none. -/
theorem retPopsIntoPc : Obligations.RetPopsIntoPc :=
  ⟨fun w => decode_eq_ok_iff w .ret, fun s k hsp =>
    ⟨_, exec_ret_of_sp_eq_succ hsp, rfl, rfl, fun _ => rfl, setPc_withStack_frame s s.stack k.castSucc s.stack[k]⟩⟩

/-- Settles O26. -/
theorem jpSetsPcToItsAddress : Obligations.JpSetsPcToItsAddress := fun nnn =>
  ⟨decode_formatFA_iff (op := 0x1#4) rfl, fun s => ⟨_, exec_jp nnn s, target_toNat nnn, setPc_sameButPc s _⟩⟩

/-- Settles O27, by what the push writes. -/
theorem callPushesAndJumps : Obligations.CallPushesAndJumps := by
  refine fun nnn => ⟨decode_formatFA_iff (op := 0x2#4) rfl, fun s hsp => ?_⟩
  obtain ⟨st, n, hn, hst, he⟩ := exec_call_of_sp_lt nnn hsp
  exact ⟨_, he, target_toNat nnn, hn, hst, setPc_withStack_frame s st n (target nnn)⟩

/-- Settles O29: the `CALL` leaves `sp` one above the entry that holds its post-fetch `pc`, which is where `RET` looks. -/
theorem retUndoesCall : Obligations.RetUndoesCall := by
  intro nnn s t u k hk hcall hsp hentry
  obtain ⟨st, n, hn, hst, he⟩ := exec_call_of_sp_lt nnn (s := s) (by omega)
  cases he.symm.trans hcall
  have hu : u.sp.val = k.val + 1 := by rw [hsp, ← hk]; exact hn
  refine ⟨_, exec_ret_of_sp_eq_succ hu, ?_, Fin.ext hk.symm⟩
  calc u.stack[k] = st[k] := hentry
    _ = s.pc := by rw [hst, if_pos hk.symm]

/-- Settles O25: the pop of an empty stack is fault entry alone. -/
theorem retOnAnEmptyStackHalts : Obligations.RetOnAnEmptyStackHalts := fun s hsp =>
  ⟨_, exec_ret_of_empty hsp, raise_halted s _, rfl, raise_pc s _, raise_frame s _⟩

/-- Settles O28: the push on a full stack is fault entry alone, and the jump is not made. -/
theorem callOnAFullStackHalts : Obligations.CallOnAFullStackHalts := fun nnn s hsp =>
  ⟨_, exec_call_of_full nnn hsp, raise_halted s _, rfl, raise_pc s _, raise_frame s _⟩

end Machine

end Sys2Proof

/-! PROOFS. The family of the conditional skips (spec/43_skips.md): `SE Vx, byte` (R161), `SNE Vx, byte` (R162) and `SE Vx, Vy`
(R163). -/

namespace Sys2Proof

/-! ### The words of formats FI and FR -/

/-- The bits under mask 0xF000 are the opcode nibble. -/
theorem mask_opcode_eq_iff (op : BitVec 4) (w : Word) : w &&& 0xF000#16 = formatFA op 0#12 ↔ n3 w = op := by
  rw [← matches_opcode_iff, OpcodeRow.matches, beq_iff_eq]

/-- The bits under mask 0xF00F are the opcode nibble and the function code. -/
theorem mask_opcode_function_eq_iff (op fn : BitVec 4) (w : Word) :
    w &&& 0xF00F#16 = formatFR op 0 0 fn ↔ n3 w = op ∧ n0 w = fn := by
  rw [← matches_opcode_function_iff, OpcodeRow.matches, beq_iff_eq]

/-- A word decodes to an instruction of format FI exactly when its opcode and its two operands are the instruction's
(spec/30_encoding.md R81, R86). -/
theorem decode_formatFI_iff {i : Instr} {op : BitVec 4} {x : RegIdx} {nn : Byte} (hi : encode i = formatFI op x nn)
    (w : Word) : decode w = .ok i ↔ w &&& 0xF000#16 = formatFA op 0#12 ∧ fieldX w = x ∧ fieldNN w = nn := by
  rw [decode_eq_ok_iff, hi, eq_comm, formatFI_eq_iff, mask_opcode_eq_iff]

/-- A word decodes to an instruction of format FR exactly when its opcode, its function code and its two registers are the
instruction's (spec/30_encoding.md R81, R86). -/
theorem decode_formatFR_iff {i : Instr} {op fn : BitVec 4} {x y : RegIdx} (hi : encode i = formatFR op x y fn) (w : Word) :
    decode w = .ok i ↔ w &&& 0xF00F#16 = formatFR op 0 0 fn ∧ fieldX w = x ∧ fieldY w = y := by
  rw [decode_eq_ok_iff, hi, eq_comm, formatFR_eq_iff, mask_opcode_function_eq_iff]
  constructor
  · rintro ⟨hop, hx, hy, hfn⟩
    exact ⟨⟨hop, hfn⟩, hx, hy⟩
  · rintro ⟨⟨hop, hfn⟩, hx, hy⟩
    exact ⟨hop, hx, hy, hfn⟩

namespace Machine

/-! ### The meanings -/

theorem exec_seImm (x : RegIdx) (nn : Byte) (s : State) :
    exec (.seImm x nn) s = .next (s.skipIf (s.readReg x == nn)) := rfl

theorem exec_sneImm (x : RegIdx) (nn : Byte) (s : State) :
    exec (.sneImm x nn) s = .next (s.skipIf (s.readReg x != nn)) := rfl

theorem exec_seReg (x y : RegIdx) (s : State) :
    exec (.seReg x y) s = .next (s.skipIf (s.readReg x == s.readReg y)) := rfl

/-! ### The shared skip -/

theorem skipIf_sameButPc (s : State) (c : Bool) : SameButPc s (s.skipIf c) := by
  obtain ⟨v, hv⟩ := skipIf_eq_setPc s c
  exact hv ▸ setPc_sameButPc s v

/-- A skip on equality (spec/43_skips.md R161, R163). -/
theorem skipIf_beq_pc (s : State) (a b : Byte) : (s.skipIf (a == b)).pc = if a = b then s.pc + 2#16 else s.pc := by
  simp only [skipIf_pc, beq_iff_eq]

/-- A skip on inequality (spec/43_skips.md R162). -/
theorem skipIf_bne_pc (s : State) (a b : Byte) : (s.skipIf (a != b)).pc = if a = b then s.pc else s.pc + 2#16 := by
  simp only [skipIf_pc, bne_iff_ne, ite_not]

/-- A skip that is taken moves `pc`, from every address: 2 is not 0 modulo 65536. -/
theorem skipIf_pc_eq_iff (s : State) (c : Bool) : (s.skipIf c).pc = s.pc ↔ c = false := by
  cases c with
  | false => exact iff_of_true rfl rfl
  | true => exact iff_of_false (show s.pc + 2#16 ≠ s.pc by bv_omega) Bool.noConfusion

/-- Of a skip on inequality and one on equality, exactly one is taken (spec/43_skips.md R162). -/
theorem skipIf_bne_pc_eq_iff (s : State) (a b : Byte) :
    (s.skipIf (a != b)).pc = s.pc ↔ (s.skipIf (a == b)).pc ≠ s.pc := by
  rw [Ne, skipIf_pc_eq_iff, skipIf_pc_eq_iff, Bool.not_eq_false, bne_eq_false_iff_eq, beq_iff_eq]

/-! ### The settled obligations on the skips -/

/-- Settles O30: the word is of format FI, and the meaning is the skip on equality with the byte. -/
theorem seImmSkipsOnEqual : Obligations.SeImmSkipsOnEqual := fun x nn =>
  ⟨decode_formatFI_iff (op := 0x3#4) rfl, fun s =>
    ⟨_, exec_seImm x nn s, skipIf_beq_pc s _ _, skipIf_sameButPc s _⟩⟩

/-- Settles O31: the condition of the skip is the negation of the one of `SE Vx, byte`. -/
theorem sneImmSkipsOnUnequal : Obligations.SneImmSkipsOnUnequal := fun x nn =>
  ⟨decode_formatFI_iff (op := 0x4#4) rfl, fun s =>
    ⟨_, _, exec_sneImm x nn s, exec_seImm x nn s, skipIf_bne_pc s _ _, skipIf_bne_pc_eq_iff s _ _, skipIf_sameButPc s _⟩⟩

/-- Settles O32: the words of the family with a function code are its illegal ones, and a register equals itself. -/
theorem seRegSkipsOnEqual : Obligations.SeRegSkipsOnEqual := by
  refine fun x y => ⟨decode_formatFR_iff (op := 0x5#4) (fn := 0x0#4) rfl, fun w hop _ _ hfn => ?_, fun s => ?_⟩
  · have hfamily : w.toNat / 4096 = 5 := (n3_eq_iff w 0x5#4).mp ((mask_opcode_eq_iff 0x5#4 w).mp hop)
    exact (decode_fiveFamily_iff w).mpr ⟨hfamily, hfn⟩
  · have hpc := skipIf_beq_pc s (s.readReg x) (s.readReg y)
    refine ⟨_, exec_seReg x y s, hpc, fun hxy => ?_, skipIf_sameButPc s _⟩
    exact hpc.trans (if_pos (congrArg s.readReg hxy))

end Machine

end Sys2Proof

/-! PROOFS. The family of the immediate operations (spec/44_immediate.md): `LD Vx, byte` (R170) and `ADD Vx, byte` (R171). -/

namespace Sys2Proof

namespace Machine

/-! ### The meanings -/

theorem exec_ldImm (x : RegIdx) (nn : Byte) (s : State) : exec (.ldImm x nn) s = .next (s.writeReg x nn) := rfl

theorem exec_addImm (x : RegIdx) (nn : Byte) (s : State) :
    exec (.addImm x nn) s = .next (s.writeReg x (sumByte (s.readReg x) nn)) := rfl

/-! ### The shared register write -/

theorem readReg_writeReg_same (s : State) (i : RegIdx) (v : Byte) : (s.writeReg i v).readReg i = v := by
  rw [readReg_writeReg, if_pos rfl]

/-- A register write leaves every other register, `pc` and everything else (spec/44_immediate.md R170, R171). -/
theorem writeReg_frame (s : State) (i : RegIdx) (v : Byte) :
    SameRegsExcept [i] s (s.writeReg i v) ∧ (s.writeReg i v).pc = s.pc ∧ SameButRegsAndPc s (s.writeReg i v) :=
  ⟨writeReg_sameRegsExcept s i v, writeReg_pc s i v,
    ⟨rfl, fun _ => rfl⟩, fun _ => rfl, ⟨rfl, rfl, rfl, fun _ => rfl, fun _ => rfl⟩, rfl, rfl⟩

/-! ### The settled obligations on the immediate operations -/

/-- Settles O33: the word is of format FI, and the meaning is the write of the byte. -/
theorem ldImmLoadsItsByte : Obligations.LdImmLoadsItsByte := fun x nn =>
  ⟨decode_formatFI_iff (op := 0x6#4) rfl, fun s =>
    ⟨_, exec_ldImm x nn s, readReg_writeReg_same s x nn, writeReg_frame s x nn⟩⟩

/-- Settles O34: the one write is of the byte sum of the old register, so `x[15]` is written only as the target. -/
theorem addImmAddsModulo256 : Obligations.AddImmAddsModulo256 := by
  refine fun x nn => ⟨decode_formatFI_iff (op := 0x7#4) rfl, fun s => ⟨_, exec_addImm x nn s, ?_, writeReg_frame s x _⟩⟩
  rw [readReg_writeReg_same, sumByte_toNat]

end Machine

end Sys2Proof

/-! PROOFS. The family of the register-register operations (spec/45_alu_register.md): `LD Vx, Vy` (R181), `OR` (R182), `AND`
(R183), `XOR` (R184) and `ADD Vx, Vy` (R185). -/

namespace Sys2Proof

namespace Machine

/-! ### The meanings -/

theorem exec_ldReg (x y : RegIdx) (s : State) : exec (.ldReg x y) s = .next (s.writeReg x (s.readReg y)) := rfl

theorem exec_orReg (x y : RegIdx) (s : State) :
    exec (.orReg x y) s = .next (s.writeReg x (s.readReg x ||| s.readReg y)) := rfl

theorem exec_andReg (x y : RegIdx) (s : State) :
    exec (.andReg x y) s = .next (s.writeReg x (s.readReg x &&& s.readReg y)) := rfl

theorem exec_xorReg (x y : RegIdx) (s : State) :
    exec (.xorReg x y) s = .next (s.writeReg x (s.readReg x ^^^ s.readReg y)) := rfl

/-- Both operands of the sum and of the carry are the old registers, and the carry is written last
(spec/45_alu_register.md R180, R185). -/
theorem exec_addReg (x y : RegIdx) (s : State) :
    exec (.addReg x y) s = .next ((s.writeReg x (sumByte (s.readReg x) (s.readReg y))).writeReg flagReg
      (carryByte (s.readReg x) (s.readReg y))) := rfl

/-! ### A write to a register and then to the flag -/

theorem readReg_writeReg_of_ne (s : State) {i j : RegIdx} (v : Byte) (h : j ≠ i) :
    (s.writeReg i v).readReg j = s.readReg j := by
  rw [readReg_writeReg, if_neg h]

/-- Two register writes leave every third register, `pc` and everything else (spec/45_alu_register.md R185). -/
theorem writeReg_writeReg_frame (s : State) (i j : RegIdx) (v w : Byte) :
    SameRegsExcept [i, j] s ((s.writeReg i v).writeReg j w) ∧ ((s.writeReg i v).writeReg j w).pc = s.pc ∧
      SameButRegsAndPc s ((s.writeReg i v).writeReg j w) :=
  ⟨(writeReg_sameRegsExcept s i v).trans (writeReg_sameRegsExcept _ j w), rfl,
    ⟨rfl, fun _ => rfl⟩, fun _ => rfl, ⟨rfl, rfl, rfl, fun _ => rfl, fun _ => rfl⟩, rfl, rfl⟩

/-! ### The settled obligations on the register-register operations -/

/-- Settles O35: the word is of format FR, and the meaning is the write of the old `x[Y]`. -/
theorem ldRegCopies : Obligations.LdRegCopies := fun x y =>
  ⟨decode_formatFR_iff (op := 0x8#4) (fn := 0x0#4) rfl, fun s =>
    ⟨_, exec_ldReg x y s, readReg_writeReg_same s x _, writeReg_frame s x _⟩⟩

/-- Settles O36: the disjunction is written back (decision D2), and to `x[X]` alone (decision D8). -/
theorem orWritesTheBitwiseOr : Obligations.OrWritesTheBitwiseOr := by
  refine fun x y => ⟨decode_formatFR_iff (op := 0x8#4) (fn := 0x1#4) rfl, fun s =>
    ⟨_, exec_orReg x y s, fun b => ?_, writeReg_frame s x _⟩⟩
  rw [readReg_writeReg_same, BitVec.getLsbD_or]

/-- Settles O37: the conjunction is written to `x[X]` alone (decision D8). -/
theorem andWritesTheBitwiseAnd : Obligations.AndWritesTheBitwiseAnd := by
  refine fun x y => ⟨decode_formatFR_iff (op := 0x8#4) (fn := 0x2#4) rfl, fun s =>
    ⟨_, exec_andReg x y s, fun b => ?_, writeReg_frame s x _⟩⟩
  rw [readReg_writeReg_same, BitVec.getLsbD_and]

/-- Settles O38: the exclusive OR is written to `x[X]` alone (decision D8), and that of a byte with itself is 0. -/
theorem xorWritesTheBitwiseXor : Obligations.XorWritesTheBitwiseXor := by
  refine fun x y => ⟨decode_formatFR_iff (op := 0x8#4) (fn := 0x3#4) rfl, fun s =>
    ⟨_, exec_xorReg x y s, fun b => ?_, fun hxy => ?_, writeReg_frame s x _⟩⟩
  · rw [readReg_writeReg_same, BitVec.getLsbD_xor]
  · rw [readReg_writeReg_same, hxy, BitVec.xor_self]

/-- Settles O39: the write of the carry is the last, so it stands whatever `X` is (decision D3), and a sum in another register
outlasts it. -/
theorem addRegAddsAndSetsTheCarry : Obligations.AddRegAddsAndSetsTheCarry := by
  refine fun x y => ⟨decode_formatFR_iff (op := 0x8#4) (fn := 0x4#4) rfl, fun s =>
    ⟨_, exec_addReg x y s, readReg_writeReg_same _ flagReg _, fun hx => ?_, writeReg_writeReg_frame s x flagReg _ _⟩⟩
  rw [readReg_writeReg_of_ne (i := flagReg) _ _ hx, readReg_writeReg_same, sumByte_toNat]

end Machine

end Sys2Proof

/-! PROOFS. The family of the host interface (spec/46_host_interface.md): the RAM write (R204), the key write (R205), the state
read (R206) and the order of simultaneous requests (R209). -/

namespace Sys2Proof.Machine

/-! ### RAM in canonical form is determined by its reads (log 3) -/

theorem memory_wfFrom_cons_iff (lo k : Nat) (v : Byte) (rest : Memory) :
    Memory.wfFrom lo ((k, v) :: rest) = true ↔
      lo ≤ k ∧ k < 4096 ∧ v ≠ Memory.unlisted k ∧ Memory.wfFrom (k + 1) rest = true := by
  simp only [Memory.wfFrom, Bool.and_eq_true, decide_eq_true_eq, Bool.not_eq_true', decide_eq_false_iff_not, and_assoc,
    ne_eq]

theorem memory_read_head (k : Nat) (v : Byte) (rest : Memory) : Memory.read ((k, v) :: rest) k = v := if_pos rfl

theorem memory_read_tail {k a : Nat} (v : Byte) (rest : Memory) (h : k < a) :
    Memory.read ((k, v) :: rest) a = Memory.read rest a :=
  if_neg h.ne

/-- A canonical memory is one from the address of its first cell on. -/
theorem memory_wfFrom_head {lo k : Nat} {v : Byte} {rest : Memory} (h : Memory.wfFrom lo ((k, v) :: rest) = true) :
    Memory.wfFrom k ((k, v) :: rest) = true :=
  (memory_wfFrom_cons_iff k k v rest).mpr ⟨le_rfl, ((memory_wfFrom_cons_iff lo k v rest).mp h).2⟩

/-- Where a canonical memory whose cells begin at `lo` reads other than the reset contents, it is not below `lo`. -/
theorem memory_start_le_of_read {m : Memory} {lo k : Nat} {v : Byte} (hm : m.wfFrom lo = true)
    (hv : v ≠ Memory.unlisted k) (hr : m.read k = v) : lo ≤ k :=
  le_of_not_gt fun hk => hv (hr.symm.trans (memory_read_below m lo k hm hk))

/-- Canonical memories that read the same at every address of RAM are the same: their first cells are at the same address, since
each would be read in the other, and past it the reads are those of the rest. -/
theorem memory_ext {m n : Memory} {lo lo' : Nat} (hm : m.wfFrom lo = true) (hn : n.wfFrom lo' = true)
    (h : ∀ a < 4096, m.read a = n.read a) : m = n := by
  induction m generalizing n lo lo' with
  | nil =>
    cases n with
    | nil => rfl
    | cons d n =>
      obtain ⟨j, w⟩ := d
      obtain ⟨-, hj, hw, -⟩ := (memory_wfFrom_cons_iff lo' j w n).mp hn
      exact absurd ((memory_read_head j w n).symm.trans (h j hj).symm) hw
  | cons c m ih =>
    obtain ⟨k, v⟩ := c
    obtain ⟨-, hk, hv, hmrest⟩ := (memory_wfFrom_cons_iff lo k v m).mp hm
    have hreadk : n.read k = v := (h k hk).symm.trans (memory_read_head k v m)
    cases n with
    | nil => exact absurd hreadk.symm hv
    | cons d n =>
      obtain ⟨j, w⟩ := d
      obtain ⟨-, hj, hw, hnrest⟩ := (memory_wfFrom_cons_iff lo' j w n).mp hn
      have hreadj : Memory.read ((k, v) :: m) j = w := (h j hj).trans (memory_read_head j w n)
      have hjk : j ≤ k := memory_start_le_of_read (memory_wfFrom_head hn) hv hreadk
      have hkj : k ≤ j := memory_start_le_of_read (memory_wfFrom_head hm) hw hreadj
      obtain rfl : k = j := le_antisymm hkj hjk
      obtain rfl : v = w := (memory_read_head k v m).symm.trans hreadj
      refine congrArg _ (ih hmrest hnrest fun a ha => ?_)
      rcases Nat.lt_or_ge k a with hka | hak
      · rw [← memory_read_tail v m hka, h a ha, memory_read_tail v n hka]
      · rw [memory_read_below m (k + 1) a hmrest (by omega), memory_read_below n (k + 1) a hnrest (by omega)]

/-! ### A state is its elements -/

theorem x_ext {s t : State} (h : SameRegs s t) : t.x = s.x :=
  Vector.ext fun k hk => h ⟨k, hk⟩

theorem stack_ext {s t : State} (h : SameStack s t) : t.stack = s.stack :=
  Vector.ext fun k hk => h.2 ⟨k, hk⟩

theorem keys_ext {s t : State} (h : SameKeys s t) : t.keys = s.keys :=
  BitVec.eq_of_getLsbD_eq fun k hk => h ⟨k, hk⟩

/-- RAM read at every 12-bit address is RAM, in canonical form. -/
theorem ram_ext {s t : State} (hs : s.ram.wf = true) (ht : t.ram.wf = true)
    (h : ∀ a : Addr12, t.ram.read a.toNat = s.ram.read a.toNat) : t.ram = s.ram :=
  memory_ext ht hs fun a ha => by simpa [Nat.mod_eq_of_lt ha] using h (BitVec.ofNat 12 a)

/-- States with the same elements (spec/10_state.md R20) are the same. -/
theorem state_ext {s t : State} (hpc : t.pc = s.pc) (hregs : SameRegs s t) (hi : t.iReg = s.iReg) (hstack : SameStack s t)
    (hdt : t.dt = s.dt) (hst : t.st = s.st) (hram : t.ram = s.ram) (hfb : SameFb s t) (hkeys : SameKeys s t)
    (hstatus : SameStatus s t) : s = t := by
  have hx := x_ext hregs
  have hentries := stack_ext hstack
  have hcells := fb_ext hfb
  have hk := keys_ext hkeys
  obtain ⟨hsp, -⟩ := hstack
  obtain ⟨hh, hc⟩ := hstatus
  cases s
  cases t
  simp_all only

/-! ### The debug read-out loses nothing (R206, R208) -/

theorem eq_of_setWidth_16 {n : Nat} {a b : BitVec n} (hn : n ≤ 16) (h : a.setWidth 16 = b.setWidth 16) : a = b := by
  simpa only [BitVec.setWidth_setWidth_of_le _ hn, BitVec.setWidth_eq] using congrArg (BitVec.setWidth n) h

theorem eq_of_ofBool_setWidth_16 {a b : Bool} (h : (BitVec.ofBool a).setWidth 16 = (BitVec.ofBool b).setWidth 16) : a = b :=
  BitVec.ofBool_eq_iff_eq.mp (eq_of_setWidth_16 (by decide) h)

theorem eq_of_ofNat_16 {a b : Fin 17} (h : BitVec.ofNat 16 a.val = BitVec.ofNat 16 b.val) : a = b := by
  have := congrArg BitVec.toNat h
  simp only [BitVec.toNat_ofNat] at this
  omega

/-- Each fault has its own code, and none has the code 0 of no fault (spec/60_exceptions.md R230). -/
theorem causeCode_injective : Function.Injective causeCode
  | none, none, _ => rfl
  | some f, none, h => by cases f <;> cases h
  | none, some g, h => by cases g <;> cases h
  | some f, some g, h => by cases f <;> cases g <;> cases h <;> rfl

/-- Settles O49: each element's read gives the element back, RAM's because its form is canonical. -/
theorem stateReadsShowTheWholeState : Obligations.StateReadsShowTheWholeState := by
  refine ⟨fun _ _ => rfl, fun s t hs ht hsame => ?_⟩
  have hread (e : Element) : readElement t e = readElement s e := Option.some.inj (hsame e).symm
  exact state_ext
    (hpc := hread .pc)
    (hregs := fun i => eq_of_setWidth_16 (by decide) (hread (.x i)))
    (hi := hread .iReg)
    (hstack := ⟨eq_of_ofNat_16 (hread .sp), fun k => hread (.stack k)⟩)
    (hdt := eq_of_setWidth_16 (by decide) (hread .dt))
    (hst := eq_of_setWidth_16 (by decide) (hread .st))
    (hram := ram_ext hs ht fun a => eq_of_setWidth_16 (by decide) (hread (.ram a)))
    (hfb := fun k => eq_of_ofBool_setWidth_16 (hread (.fb k)))
    (hkeys := fun k => eq_of_ofBool_setWidth_16 (hread (.keys k)))
    (hstatus := ⟨eq_of_ofBool_setWidth_16 (hread .halted),
      causeCode_injective (eq_of_setWidth_16 (by decide) (hread .faultCause))⟩)

/-! ### The RAM write and the key write -/

theorem transact_ramWrite (a : Addr12) (v : Byte) (s : State) : transact (.ramWrite a v) s = .next (s.writeRam a v) := rfl

theorem transact_keyWrite (k : Fin 16) (b : Bool) (s : State) : transact (.keyWrite k b) s = .next (s.writeKey k b) := rfl

/-- Settles O47: the read after a write, the canonical form it keeps, and the elements that the write does not touch. -/
theorem ramWriteSetsOneByte : Obligations.RamWriteSetsOneByte := fun s a v hm =>
  ⟨_, transact_ramWrite a v s, fun b => writeRam_read s a v b hm, writeRam_wf s a v hm,
    writeRam_pc s a v, readReg_congr (writeRam_x s a v), writeRam_iReg s a v, ⟨writeRam_sp s a v, fun _ => rfl⟩,
    writeRam_dt s a v, writeRam_st s a v, fun _ => rfl, fun _ => rfl, writeRam_halted s a v, writeRam_faultCause s a v⟩

/-- Settles O48: the read of a key after a write, and the elements that the write does not touch. -/
theorem keyWriteSetsOneKey : Obligations.KeyWriteSetsOneKey := fun s k b =>
  ⟨_, transact_keyWrite k b s, fun j => keyRead_writeKey s k j b,
    writeKey_pc s k b, readReg_congr (writeKey_x s k b), writeKey_iReg s k b, ⟨writeKey_sp s k b, fun _ => rfl⟩,
    writeKey_dt s k b, writeKey_st s k b, fun _ => rfl, fun _ => rfl, writeKey_halted s k b, writeKey_faultCause s k b⟩

/-! ### Simultaneous requests (R209) -/

/-- The state that a RAM write and, where it is requested, a timer tick after it leave. -/
def State.writeThenTime (s : State) (a : Addr12) (v : Byte) (timer : Bool) : State :=
  if timer then (s.writeRam a v).countTimers else s.writeRam a v

section
variable (s : State) (a : Addr12) (v : Byte) (timer : Bool)

@[simp] theorem writeThenTime_pc : (s.writeThenTime a v timer).pc = s.pc := by cases timer <;> rfl
@[simp] theorem writeThenTime_halted : (s.writeThenTime a v timer).halted = s.halted := by cases timer <;> rfl
@[simp] theorem writeThenTime_ram : (s.writeThenTime a v timer).ram = (s.writeRam a v).ram := by cases timer <;> rfl

/-- The fetch after the write finds the written byte in place of either byte of the word at `pc` (spec/20_memory.md R61). -/
theorem wordAtPc_writeThenTime (hm : s.ram.wf = true) :
    (s.writeThenTime a v timer).wordAtPc =
      wordOfBytes (if a.toNat = s.pc.toNat then v else s.ram.read s.pc.toNat)
        (if a.toNat = s.pc.toNat + 1 then v else s.ram.read (s.pc.toNat + 1)) := by
  rw [State.wordAtPc, writeThenTime_pc, writeThenTime_ram, writeRam_read s a v _ hm, writeRam_read s a v _ hm]
  simp only [eq_comm]

end

theorem transactAll_singleton (r : Transaction) (s : State) : transactAll [r] s = transact r s := by
  obtain ⟨t, ht⟩ := transact_next r s
  rw [transactAll_cons ht, ht, transactAll]

/-- Reset takes the edge for itself. -/
theorem serve_reset {r : Requests} (h : r.rst = true) (s : State) : serve r s = .next State.reset := by
  rw [serve, Requests.transactions, if_pos h, transactAll_singleton, transact]

/-- A tick requested with a RAM write is a tick of the state after the write and the timer tick. -/
theorem serve_ramWrite_tick (s : State) (a : Addr12) (v : Byte) (timer : Bool) :
    serve { rst := false, ramWrite := some (a, v), timerReq := timer, stepReq := true } s =
      step (s.writeThenTime a v timer) := by
  cases timer with
  | false => exact (transactAll_cons (transact_ramWrite a v s) _).trans (transactAll_singleton .tick _)
  | true =>
    calc transactAll [.ramWrite a v, .tickTimers, .tick] s
      _ = transactAll [.tickTimers, .tick] (s.writeRam a v) := transactAll_cons rfl _
      _ = transactAll [.tick] (s.writeRam a v).countTimers := transactAll_cons rfl _
      _ = step (s.writeRam a v).countTimers := transactAll_singleton .tick _

/-- Settles O50: the requests end in a tick of the state after the write, whose fetch finds the byte just written. -/
theorem simultaneousRequestsAreOrdered : Obligations.SimultaneousRequestsAreOrdered := by
  refine ⟨fun r s h => serve_reset h s, fun s a v timer hrun hp hm => ?_⟩
  have hrun' : (s.writeThenTime a v timer).halted = false := (writeThenTime_halted s a v timer).trans hrun
  have hp' : (s.writeThenTime a v timer).pc.toNat ≤ 0x0FFE := by rwa [writeThenTime_pc]
  rw [serve_ramWrite_tick, ← wordAtPc_writeThenTime s a v timer hm]
  cases hd : decode (s.writeThenTime a v timer).wordAtPc with
  | ok i => exact step_executes _ hrun' hp' i hd
  | error c => exact step_illegal _ hrun' hp' c hd

end Sys2Proof.Machine

/-! PROOFS. The family of faults and timers (spec/60_exceptions.md): the order of the faults (R235) and the state they leave
(R237), the halted state (R238, R239), the timer tick (R246 to R249), `sound_active` (R250, R251) and a tick next to a timer
tick (R253). -/

namespace Sys2Proof.Machine

/-! ### The fault of a tick -/

/-- The fault that the meaning of an instruction raises, by what the stack holds: only `CALL` and `RET` can
(spec/60_exceptions.md R233, R234). -/
def execFault (s : State) : Instr → Option Fault
  | .call _ => if s.sp.val = 16 then some .stackOverflow else none
  | .ret => if s.sp.val = 0 then some .stackUnderflow else none
  | _ => none

/-- The first fault that applies to a tick of a running block, in the order fetch, decode, stack
(spec/60_exceptions.md R235). -/
def tickFault (s : State) : Option Fault :=
  if 0x0FFF ≤ s.pc.toNat then some .fetchOutOfBounds
  else match decode s.wordAtPc with
    | .error _ => some .illegalOpcode
    | .ok i => execFault s i

theorem tickFault_fetch {s : State} (hp : 0x0FFF ≤ s.pc.toNat) : tickFault s = some .fetchOutOfBounds := if_pos hp

theorem tickFault_illegal {s : State} (hp : s.pc.toNat ≤ 0x0FFE) {c : IllegalClass} (hd : decode s.wordAtPc = .error c) :
    tickFault s = some .illegalOpcode := by
  rw [tickFault, if_neg (by omega), hd]

theorem tickFault_executes {s : State} (hp : s.pc.toNat ≤ 0x0FFE) {i : Instr} (hd : decode s.wordAtPc = .ok i) :
    tickFault s = execFault s i := by
  rw [tickFault, if_neg (by omega), hd]

theorem execFault_ne_fetchOutOfBounds {s : State} {i : Instr} {f : Fault} (h : execFault s i = some f) :
    f ≠ .fetchOutOfBounds := by
  rintro rfl
  unfold execFault at h
  split at h
  · split at h <;> cases h
  · split at h <;> cases h
  · cases h

/-- A meaning is fault entry alone where its instruction faults, and elsewhere leaves the fault status as it is. -/
theorem exec_raises_or_completes (i : Instr) (s : State) :
    (∃ f, execFault s i = some f ∧ exec i s = .next (s.raise f)) ∨
    (execFault s i = none ∧ ∃ t, exec i s = .next t ∧ SameStatus s t) := by
  cases i with
  | call nnn =>
    by_cases hsp : s.sp.val = 16
    · exact .inl ⟨_, if_pos hsp, exec_call_of_full nnn hsp⟩
    · obtain ⟨st, n, -, -, he⟩ := exec_call_of_sp_lt nnn (s := s) (by omega)
      exact .inr ⟨if_neg hsp, _, he, rfl, rfl⟩
  | ret =>
    obtain ⟨hsp, he⟩ | ⟨k, n, hsp, -, he⟩ := execRet_cases s
    · exact .inl ⟨_, if_pos hsp, he⟩
    · exact .inr ⟨if_neg (by omega), _, he, rfl, rfl⟩
  | seImm | sneImm | seReg => exact .inr ⟨rfl, _, rfl, skipIf_halted s _, skipIf_faultCause s _⟩
  | nop | cls | jp | ldImm | addImm | ldReg | orReg | andReg | xorReg | addReg => exact .inr ⟨rfl, _, rfl, rfl, rfl⟩

/-- What a tick of a running block does to the fault status, and all that one that raises does: a fault of fetch is entered in
the state when the tick began, the others after the `pc` increment (spec/60_exceptions.md R235, R237). -/
theorem step_raises_or_completes {s : State} (hrun : s.halted = false) :
    (tickFault s = some .fetchOutOfBounds ∧ step s = .next (s.raise .fetchOutOfBounds)) ∨
    (∃ f, f ≠ .fetchOutOfBounds ∧ tickFault s = some f ∧ s.pc.toNat ≤ 0x0FFE ∧ step s = .next (s.advancePc.raise f)) ∨
    (tickFault s = none ∧ ∃ t, step s = .next t ∧ SameStatus s t) := by
  obtain ⟨hh, -⟩ | ⟨-, hp, he⟩ | ⟨-, hp, ⟨c, hd⟩, he⟩ | ⟨-, hp, i, hd, he⟩ := step_cases s
  · cases hrun.symm.trans hh
  · exact .inl ⟨tickFault_fetch hp, he⟩
  · exact .inr (.inl ⟨_, Fault.noConfusion, tickFault_illegal hp hd, hp, he⟩)
  · have hfault : tickFault s = execFault s.advancePc i := tickFault_executes hp hd
    obtain ⟨f, hf, ht⟩ | ⟨hnone, t, ht, hstatus⟩ := exec_raises_or_completes i s.advancePc
    · exact .inr (.inl ⟨f, execFault_ne_fetchOutOfBounds hf, hfault.trans hf, hp, he.trans ht⟩)
    · exact .inr (.inr ⟨hfault.trans hnone, t, he.trans ht, hstatus⟩)

theorem raise_causeMatchesHalt (s : State) (f : Fault) : (s.raise f).causeMatchesHalt :=
  iff_of_true rfl (Option.some_ne_none f)

/-- A consistent running block has no cause (spec/10_state.md R33). -/
theorem faultCause_eq_none {s : State} (hrun : s.halted = false) (h : s.causeMatchesHalt) : s.faultCause = none :=
  not_not.mp fun hne => Bool.false_ne_true (hrun.symm.trans (h.mpr hne))

/-- The cause after a tick of a consistent running block is the fault of the tick, and the status is consistent again. -/
theorem step_faultCause {s : State} (hrun : s.halted = false) (h : s.causeMatchesHalt) :
    ∃ t, step s = .next t ∧ t.causeMatchesHalt ∧ t.faultCause = tickFault s := by
  obtain ⟨hf, he⟩ | ⟨f, -, hf, -, he⟩ | ⟨hf, t, he, hhalted, hcause⟩ := step_raises_or_completes hrun
  · exact ⟨_, he, raise_causeMatchesHalt s _, hf.symm⟩
  · exact ⟨_, he, raise_causeMatchesHalt _ f, hf.symm⟩
  · refine ⟨t, he, ?_, (hcause.trans (faultCause_eq_none hrun h)).trans hf.symm⟩
    rwa [State.causeMatchesHalt, hhalted, hcause]

/-- Settles O17: the code is that of the tick's fault, taken apart by the fetch, the decode and the instruction. -/
theorem faultsArisePreciselyInOrder : Obligations.FaultsArisePreciselyInOrder := by
  intro s hrun hmatch
  obtain ⟨t, he, hmatch', hcause⟩ := step_faultCause hrun hmatch
  refine ⟨t, he, hmatch', ?_⟩
  rw [hcause]
  split
  · next hp => rw [tickFault_fetch hp]; rfl
  · next hp =>
    have hp : s.pc.toNat ≤ 0x0FFE := by omega
    cases hd : decode s.wordAtPc with
    | error c => rw [tickFault_illegal hp hd]; rfl
    | ok i =>
      rw [tickFault_executes hp hd]
      cases i with
      | call | ret => exact apply_ite causeCode _ _ _
      | nop | cls | jp | seImm | sneImm | seReg | ldImm | addImm | ldReg | orReg | andReg | xorReg | addReg => rfl

/-- Settles O18: a tick that completes does not halt the block, and one that raises is fault entry before or after the `pc`
increment. -/
theorem faultingTickChangesNothingElse : Obligations.FaultingTickChangesNothingElse := by
  intro s t hrun ht hhalt
  obtain ⟨-, he⟩ | ⟨f, hf, -, hp, he⟩ | ⟨-, u, he, hhalted, -⟩ := step_raises_or_completes hrun <;> cases he.symm.trans ht
  · exact ⟨.inl ⟨rfl, rfl⟩, raise_frame s _⟩
  · refine ⟨.inr ⟨?_, advancePc_toNat s (by omega)⟩, raise_advancePc_frame s f⟩
    cases f with
    | fetchOutOfBounds => exact absurd rfl hf
    | illegalOpcode => exact .inl rfl
    | stackOverflow => exact .inr (.inl rfl)
    | stackUnderflow => exact .inr (.inr rfl)
  · cases (hhalted.trans hrun).symm.trans hhalt

/-! ### The halted state -/

/-- The state without `dt`, `st`, RAM and the keys, which the host's transactions change in every state
(spec/60_exceptions.md R238). -/
def State.withoutHostElements (s : State) : State := { s with dt := 0#8, st := 0#8, ram := [], keys := 0#16 }

/-- Of a halted block a transaction other than a reset changes at most the elements that the host sets or times. -/
theorem transact_halted {r : Transaction} (hr : r ≠ .reset) {s : State} (hhalt : s.halted = true) :
    ∃ t, transact r s = .next t ∧ t.withoutHostElements = s.withoutHostElements := by
  cases r with
  | reset => exact absurd rfl hr
  | tick => exact ⟨s, step_halted s hhalt, rfl⟩
  | tickTimers | ramWrite | keyWrite | stateRead => exact ⟨_, rfl, rfl⟩

/-- So does every sequence of them, since each leaves the block halted for the next. -/
theorem transactAll_halted {rs : List Transaction} (hrs : .reset ∉ rs) {s : State} (hhalt : s.halted = true) :
    ∃ t, transactAll rs s = .next t ∧ t.withoutHostElements = s.withoutHostElements := by
  induction rs generalizing s with
  | nil => exact ⟨s, rfl, rfl⟩
  | cons r rs ih =>
    rw [List.mem_cons, not_or] at hrs
    obtain ⟨hr, hrs⟩ := hrs
    obtain ⟨t, ht, hsame⟩ := transact_halted (Ne.symm hr) hhalt
    have hhalt' : t.halted = true := (congrArg State.halted hsame).trans hhalt
    obtain ⟨u, hu, hsame'⟩ := ih hrs hhalt'
    exact ⟨u, (transactAll_cons ht rs).trans hu, hsame'.trans hsame⟩

/-- Settles O51, by induction on the list of transactions: the elements named are all outside the host's reach. -/
theorem onlyResetLeavesTheHaltedState : Obligations.OnlyResetLeavesTheHaltedState := by
  intro rs s hhalt hrs
  obtain ⟨t, ht, hsame⟩ := transactAll_halted hrs hhalt
  have same {α : Type} (element : State → α) : element t.withoutHostElements = element s.withoutHostElements :=
    congrArg element hsame
  exact ⟨t, ht, (same State.halted).trans hhalt, same State.faultCause, same State.pc, fun j => same (State.readReg · j),
    ⟨same State.sp, fun k => same fun u => u.stack[k]⟩, fun k => same (State.fbRead · k), same State.iReg⟩

/-! ### The timer tick -/

theorem transact_tickTimers (s : State) : transact .tickTimers s = .next s.countTimers := rfl

theorem toneEnd_tickTimers_iff (s : State) : toneEnd .tickTimers s = true ↔ s.st.toNat = 1 := by
  rw [toneEnd, beq_iff_eq, ← BitVec.toNat_inj]
  rfl

/-- The frame of the timer tick (spec/60_exceptions.md R246). -/
theorem countTimers_sameButTimers (s : State) : SameButTimers s s.countTimers :=
  ⟨rfl, fun _ => rfl, rfl, ⟨rfl, fun _ => rfl⟩, fun _ => rfl, fun _ => rfl, fun _ => rfl, rfl, rfl⟩

/-- Settles O43. -/
theorem timerTickCountsDown : Obligations.TimerTickCountsDown := fun s =>
  ⟨_, transact_tickTimers s, countDown_toNat s.dt, countDown_toNat s.st, toneEnd_tickTimers_iff s,
    countTimers_sameButTimers s⟩

/-- The events of a list are that of its first transaction and those of the rest from the state it leaves. -/
theorem toneEnds_cons {r : Transaction} {s t : State} (h : transact r s = .next t) (rs : List Transaction) :
    toneEnds (r :: rs) s = toneEnd r s :: toneEnds rs t := by
  simp only [toneEnds, h]

/-- Of `n` timer ticks in a row the one that finds `st` at 1 is the `st`-th (spec/60_exceptions.md R248). -/
theorem toneEnds_replicate_tickTimers (n : Nat) (s : State) :
    toneEnds (List.replicate n .tickTimers) s = (List.range n).map fun j => decide (s.st.toNat = j + 1) := by
  induction n generalizing s with
  | zero => rfl
  | succ n ih =>
    have hfirst : toneEnd .tickTimers s = decide (s.st.toNat = 0 + 1) := by
      rw [Bool.eq_iff_iff, toneEnd_tickTimers_iff, decide_eq_true_iff]
    have hshift (j : Nat) : decide (s.countTimers.st.toNat = j + 1) = decide (s.st.toNat = j + 1 + 1) := by
      rw [countTimers_st, countDown_toNat, decide_eq_decide]
      omega
    rw [List.replicate_succ, toneEnds_cons (transact_tickTimers s), ih, List.range_succ_eq_map, List.map_cons, List.map_map,
      hfirst]
    exact congrArg _ (List.map_congr_left fun j _ => hshift j)

/-- `n` timer ticks in a row lower each timer by `n`, not below 0 (spec/60_exceptions.md R249). -/
theorem transactAll_replicate_tickTimers (n : Nat) (s : State) :
    ∃ t, transactAll (List.replicate n .tickTimers) s = .next t ∧
      t.st.toNat = s.st.toNat - n ∧ t.dt.toNat = s.dt.toNat - n := by
  induction n generalizing s with
  | zero => exact ⟨s, rfl, rfl, rfl⟩
  | succ n ih =>
    obtain ⟨t, ht, hst, hdt⟩ := ih s.countTimers
    rw [countTimers_st, countDown_toNat] at hst
    rw [countTimers_dt, countDown_toNat] at hdt
    exact ⟨t, (transactAll_cons (transact_tickTimers s) _).trans ht, by omega, by omega⟩

/-- Settles O44, by induction on the number of timer ticks. -/
theorem toneEndsExactlyOnce : Obligations.ToneEndsExactlyOnce := fun n s =>
  ⟨toneEnds_replicate_tickTimers n s, transactAll_replicate_tickTimers n s⟩

/-! ### `sound_active` -/

theorem soundActive_iff (s : State) : s.soundActive = true ↔ s.st.toNat ≠ 0 := by
  rw [State.soundActive, bne_iff_ne, ne_eq, ← BitVec.toNat_inj]
  rfl

theorem soundActive_eq_false_iff (s : State) : s.soundActive = false ↔ s.st.toNat = 0 := by
  rw [← Bool.not_eq_true, soundActive_iff, not_not]

theorem toneEnd_of_ne_tickTimers {r : Transaction} (hr : r ≠ .tickTimers) (s : State) : toneEnd r s = false := by
  cases r with
  | tickTimers => exact absurd rfl hr
  | reset | tick | ramWrite | keyWrite | stateRead => rfl

/-- The sound falls in a timer tick exactly when the tick lowers `st` from 1 to 0 (spec/60_exceptions.md R250, R251). -/
theorem toneEnd_tickTimers_iff_soundFalls (s : State) :
    toneEnd .tickTimers s = true ↔ s.soundActive = true ∧ s.countTimers.soundActive = false := by
  rw [toneEnd_tickTimers_iff, soundActive_iff, soundActive_eq_false_iff, countTimers_st, countDown_toNat]
  omega

/-- Settles O45. -/
theorem soundFallsWithToneEnd : Obligations.SoundFallsWithToneEnd :=
  ⟨fun s => ⟨soundActive_iff s, _, transact_tickTimers s, toneEnd_tickTimers_iff_soundFalls s⟩,
    fun _ s hr => toneEnd_of_ne_tickTimers hr s⟩

/-! ### A tick and a timer tick -/

/-- A push neither reads nor writes the timers. -/
theorem push_countTimers (s : State) (v : Addr) : s.countTimers.push v = (s.push v).map State.countTimers := by
  unfold State.push
  by_cases h : s.sp.val < 16
  · rw [dif_pos h, dif_pos (show s.countTimers.sp.val < 16 from h)]; rfl
  · rw [dif_neg h, dif_neg (show ¬s.countTimers.sp.val < 16 from h)]; rfl

/-- A skip depends on no timer. -/
theorem skipIf_countTimers (s : State) (c : Bool) : s.countTimers.skipIf c = (s.skipIf c).countTimers := by
  cases c <;> rfl

theorem execCall_countTimers {nnn : Addr12} {s t : State} (ht : exec (.call nnn) s = .next t) :
    exec (.call nnn) s.countTimers = .next t.countTimers := by
  obtain ⟨hsp, he⟩ | ⟨u, -, hpush, he⟩ := execCall_cases nnn s <;> cases he.symm.trans ht
  · exact exec_call_of_full nnn (s := s.countTimers) hsp
  · have hpush' : s.countTimers.push s.countTimers.pc = .ok u.countTimers := by
      rw [push_countTimers, countTimers_pc, hpush]; rfl
    change execCall nnn s.countTimers = _
    rw [execCall, hpush']
    rfl

/-- Every meaning neither reads nor writes the timers. -/
theorem exec_countTimers {i : Instr} {s t : State} (ht : exec i s = .next t) :
    exec i s.countTimers = .next t.countTimers := by
  cases i with
  | call nnn => exact execCall_countTimers ht
  | ret =>
    obtain ⟨hsp, he⟩ | ⟨k, n, hsp, -, -⟩ := execRet_cases s
    · cases he.symm.trans ht
      exact exec_ret_of_empty (s := s.countTimers) hsp
    · cases (exec_ret_of_sp_eq_succ hsp).symm.trans ht
      exact exec_ret_of_sp_eq_succ (s := s.countTimers) hsp
  | seImm | sneImm | seReg => cases ht; exact congrArg _ (skipIf_countTimers s _)
  | nop | cls | jp | ldImm | addImm | ldReg | orReg | andReg | xorReg | addReg => cases ht; rfl

/-- The tick after a timer tick leaves what the timer tick makes of the state the tick alone leaves, by the four things a tick
can be. -/
theorem step_countTimers {s t : State} (ht : step s = .next t) : step s.countTimers = .next t.countTimers := by
  obtain ⟨hh, he⟩ | ⟨hh, hp, he⟩ | ⟨hh, hp, ⟨c, hd⟩, he⟩ | ⟨hh, hp, i, hd, he⟩ := step_cases s
  · cases he.symm.trans ht
    exact step_halted s.countTimers hh
  · cases he.symm.trans ht
    exact step_fetch_error s.countTimers hh hp
  · cases he.symm.trans ht
    exact step_illegal s.countTimers hh hp c hd
  · exact (step_executes s.countTimers hh hp i hd).trans (exec_countTimers (he.symm.trans ht))

/-- A tick leaves `st` as it is (spec/40_step_cycle.md R116). -/
theorem step_st {s t : State} (ht : step s = .next t) : t.st = s.st := by
  obtain ⟨⟨-, -, hst, -⟩, -⟩ := tickChangesAtMostWhatR116Lists s t ht
  exact hst

/-- Settles O46: a tick neither reads nor writes the timers, so the timer tick finds the same `st` before it as after. -/
theorem tickAndTimerTickCommute : Obligations.TickAndTimerTickCommute := by
  intro s
  obtain ⟨t, ht⟩ := step_next s
  have htick : transact .tick s = .next t := ht
  have htick' : transact .tick s.countTimers = .next t.countTimers := step_countTimers ht
  constructor
  · calc transactAll [.tick, .tickTimers] s
      _ = transactAll [.tickTimers] t := transactAll_cons htick _
      _ = .next t.countTimers := transactAll_singleton .tickTimers t
      _ = transactAll [.tick] s.countTimers := by rw [transactAll_singleton, htick']
      _ = transactAll [.tickTimers, .tick] s := (transactAll_cons (transact_tickTimers s) _).symm
  · have hevent : toneEnd .tickTimers t = toneEnd .tickTimers s := by simp only [toneEnd, step_st ht]
    have hfirst : toneEnds [.tick, .tickTimers] s = [false, toneEnd .tickTimers s] := by
      rw [toneEnds_cons htick, toneEnds_cons (transact_tickTimers t), hevent]; rfl
    have hsecond : toneEnds [.tickTimers, .tick] s = [toneEnd .tickTimers s, false] := by
      rw [toneEnds_cons (transact_tickTimers s), toneEnds_cons htick']; rfl
    rw [hfirst, hsecond]
    cases toneEnd .tickTimers s <;> rfl

end Sys2Proof.Machine

/-! PROOFS. The family of reset and of what runs with nothing loaded (spec/70_reset_and_hazards.md): the reset state element by
element (R280, R36), and the `NOP`s from the entry address to the end of RAM (R286). -/

namespace Sys2Proof.Machine

/-! ### Reset -/

theorem unlisted_of_lt {a : Nat} (h : a < 80) : Memory.unlisted a = Config.font ⟨a, h⟩ := dif_pos h

theorem unlisted_of_le {a : Nat} (h : 80 ≤ a) : Memory.unlisted a = 0#8 := dif_neg (Nat.not_lt.mpr h)

theorem reset_fbRead (k : Fin 2048) : State.reset.fbRead k = false := by
  simp [State.fbRead]

theorem reset_keyRead (k : Fin 16) : State.reset.keyRead k = false := BitVec.getLsbD_zero

/-- Settles O1. -/
theorem resetRestoresEveryElement : Obligations.ResetRestoresEveryElement := fun _ =>
  ⟨rfl, State.reset, rfl, rfl, reset_pc, reset_readReg, reset_iReg, reset_stack, reset_sp, reset_dt, reset_st,
    fun _ => unlisted_of_lt, fun _ h _ => unlisted_of_le h, reset_fbRead, reset_keyRead, reset_halted, rfl⟩

/-! ### With nothing loaded -/

/-- With no cell listed, every word above the font is that of `NOP` (spec/41_system_display.md R130). -/
theorem wordAtPc_unloaded {s : State} (hram : s.ram = []) (hfont : 80 ≤ s.pc.toNat) : s.wordAtPc = 0x0000#16 := by
  have hzero (a : Nat) (ha : 80 ≤ a) : s.ram.read a = 0#8 := by rw [hram]; exact unlisted_of_le ha
  rw [State.wordAtPc, hzero _ hfont, hzero _ (by omega)]
  rfl

/-- A tick on unloaded RAM is the fetch increment. -/
theorem transact_tick_unloaded {s : State} (hrun : s.halted = false) (hram : s.ram = []) (hfont : 80 ≤ s.pc.toNat)
    (hp : s.pc.toNat ≤ 0x0FFE) : transact .tick s = .next s.advancePc :=
  step_executes s hrun hp .nop (by rw [wordAtPc_unloaded hram hfont]; rfl)

theorem advancePc_setPc_add (s : State) (n : Nat) :
    s.advancePc.setPc (s.advancePc.pc + BitVec.ofNat 16 (2 * n)) = s.setPc (s.pc + BitVec.ofNat 16 (2 * (n + 1))) := by
  rw [advancePc_pc, BitVec.add_assoc, ← BitVec.ofNat_add, Nat.add_comm 2, ← Nat.mul_succ]
  rfl

/-- `n` ticks that stay in unloaded RAM move `pc` by `2 * n`, whatever transactions follow. -/
theorem transactAll_ticks_unloaded (n : Nat) (rs : List Transaction) {s : State} (hrun : s.halted = false)
    (hram : s.ram = []) (hfont : 80 ≤ s.pc.toNat) (hend : s.pc.toNat + 2 * n ≤ 0x1000) :
    transactAll (List.replicate n .tick ++ rs) s = transactAll rs (s.setPc (s.pc + BitVec.ofNat 16 (2 * n))) := by
  induction n generalizing s with
  | zero => rw [Nat.mul_zero, BitVec.add_zero]; rfl
  | succ n ih =>
    have hadv := advancePc_toNat s (by omega)
    calc transactAll (List.replicate (n + 1) .tick ++ rs) s
      _ = transactAll (List.replicate n .tick ++ rs) s.advancePc :=
        transactAll_cons (transact_tick_unloaded hrun hram hfont (by omega)) _
      _ = transactAll rs (s.advancePc.setPc (s.advancePc.pc + BitVec.ofNat 16 (2 * n))) :=
        ih (s := s.advancePc) hrun hram (by omega) (by omega)
      _ = transactAll rs (s.setPc (s.pc + BitVec.ofNat 16 (2 * (n + 1)))) := by rw [advancePc_setPc_add]

/-- From reset, `n` ticks that stay in RAM change `pc` alone, whatever transactions follow. -/
theorem transactAll_ticks_reset {n : Nat} (hn : n ≤ 1792) (rs : List Transaction) :
    transactAll (List.replicate n .tick ++ rs) State.reset =
      transactAll rs (State.reset.setPc (BitVec.ofNat 16 (0x0200 + 2 * n))) := by
  have hpc : State.reset.pc.toNat = 0x0200 := rfl
  rw [transactAll_ticks_unloaded n rs reset_halted reset_ram (by omega) (by omega), BitVec.ofNat_add]
  rfl

/-- Settles O2, by induction on the number of ticks; the tick after 1792 of them begins at 0x1000, where nothing can be
fetched. -/
theorem unloadedRamRunsAsNops : Obligations.UnloadedRamRunsAsNops := by
  refine ⟨fun n hn => ?_, ?_⟩
  · rw [← List.append_nil (List.replicate n _), transactAll_ticks_reset hn]
    rfl
  · rw [List.replicate_succ', transactAll_ticks_reset (Nat.le_refl 1792), transactAll_singleton]
    exact step_fetch_error _ rfl (by decide)

end Sys2Proof.Machine
